-- ==== Sys2Proof/Word.lean ====
section
/-! DEFINITION. The word types of the machine: every quantity of the spec that has a width is an unsigned bit vector
(spec/00_scope.md R7, spec/41_load_and_alu.md R148: there is no signed operation in this hardware). -/

namespace Sys2Proof

/-- A 4-bit field of an opcode: a register index X or Y, the immediate N, a key index (R62, R227). -/
abbrev Nibble := BitVec 4

/-- A general register, a memory cell, a timer, the immediate NN (R10, R27, R21, R62). -/
abbrev Byte := BitVec 8

/-- The 12-bit immediate NNN (R62). -/
abbrev Addr12 := BitVec 12

/-- An opcode, PC, I, a stack entry (R9, R16, R15, R19). -/
abbrev Word := BitVec 16

end Sys2Proof
end

