-- ==== Sys2Proof/Config.lean ====
section
/-! DEFINITION. The implementation parameters of spec/00_scope.md R5, each with the value this hardware takes, and the
one free value of the machine (the random byte).

Parameters of R5 that are types or facts, not fields here: NUM_V, V_WIDTH, I_WIDTH, PC_WIDTH, STACK_ENTRY_WIDTH,
TIMER_WIDTH, NUM_KEYS, FB_W and FB_H are the types of `State`'s fields; SHIFT_SOURCE, JUMP_OFFSET_REG and SPRITE_CLIP
("fixed"), LOGIC_RESETS_VF and MEMOPS_INCREMENT_I ("no"), FONT_WRITE_PROTECT and KEY_QUALIFY stand in the meanings
and operations that have them (log entry 33). -/

namespace Sys2Proof.Config

/-- MEM_SIZE: addresses 0..4095. -/
@[simp] abbrev memSize : Nat := 4096

/-- FONT_BASE. -/
@[simp] abbrev fontBase : Nat := 0x000

/-- The first address past the font, 0x050 (FONT_BASE + FONT_GLYPHS × GLYPH_BYTES). -/
@[simp] abbrev fontEnd : Nat := 0x050

/-- PROG_BASE: where `load` puts byte 0 and where PC starts. -/
@[simp] abbrev progBase : Nat := 0x200

/-- PROG_MAX: the bytes of 0x200..0xFFF. -/
@[simp] abbrev progMax : Nat := 3584

/-- PC_MAX_FETCH: a step fetches iff PC is at most this. -/
@[simp] abbrev pcMaxFetch : Nat := 4094

/-- STACK_DEPTH. -/
@[simp] abbrev stackDepth : Nat := 16

/-- INSTR_BYTES, the default advance of PC. -/
@[simp] abbrev instrBytes : Word := 2

/-- UNKNOWN_OPCODE_ADVANCE (92_eei_decisions D6). -/
@[simp] abbrev unknownOpcodeAdvance : Word := 2

/-- UNDERFLOW_ADVANCE (92_eei_decisions D7). -/
@[simp] abbrev underflowAdvance : Word := 2

/-- INSTR_BIG_ENDIAN: the byte at PC is the more significant half of the opcode (D1; log entry 1). -/
@[simp] abbrev instrBigEndian : Bool := true

/-- STRICT_5_9: whether 5XYN and 9XYN with N ≠ 0 are unknown opcodes (D9; log entry 11). -/
@[simp] abbrev strict59 : Bool := false

/-- FLAG_WRITTEN_LAST: VX is written, then VF (D13; log entry 15). -/
@[simp] abbrev flagWrittenLast : Bool := true

/-- SPRITE_MSB_LEFT: bit 7 of a sprite byte is its leftmost pixel (D15; log entry 3). -/
@[simp] abbrev spriteMsbLeft : Bool := true

/-- FX29_MASK_NIBBLE: whether FX29 masks VX to its low nibble (D28; log entry 24). -/
@[simp] abbrev fx29MaskNibble : Bool := false

/-- FONT[0..79], the glyphs 0 to 7 (20_memory R43; log entry 2). -/
def fontLow : List Byte :=
  [0xF0, 0x90, 0x90, 0x90, 0xF0] ++ [0x20, 0x60, 0x20, 0x20, 0x70] ++
  [0xF0, 0x10, 0xF0, 0x80, 0xF0] ++ [0xF0, 0x10, 0xF0, 0x10, 0xF0] ++
  [0x90, 0x90, 0xF0, 0x10, 0x10] ++ [0xF0, 0x80, 0xF0, 0x10, 0xF0] ++
  [0xF0, 0x80, 0xF0, 0x90, 0xF0] ++ [0xF0, 0x10, 0x20, 0x40, 0x40]

/-- FONT[0..79], the glyphs 8 to F. -/
def fontHigh : List Byte :=
  [0xF0, 0x90, 0xF0, 0x90, 0xF0] ++ [0xF0, 0x90, 0xF0, 0x10, 0xF0] ++
  [0xF0, 0x90, 0xF0, 0x90, 0x90] ++ [0xE0, 0x90, 0xE0, 0x90, 0xE0] ++
  [0xF0, 0x80, 0x80, 0x80, 0xF0] ++ [0xE0, 0x90, 0x90, 0x90, 0xE0] ++
  [0xF0, 0x80, 0xF0, 0x80, 0xF0] ++ [0xF0, 0x80, 0xF0, 0x80, 0x80]

/-- FONT: the 80 glyph bytes, in address order. -/
def font : List Byte := fontLow ++ fontHigh

/-- RAND: the n-th random byte a run draws where the Scheduler names none. A FREE VALUE: it has no body, so nothing
can be proved of it (41_load_and_alu R146, D20; log entry 20). -/
opaque randomByte : Nat → Byte

end Sys2Proof.Config
end

