-- ==== Sys2Proof/Syntax.lean ====
section
/-! DEFINITION. The 34 instructions, one constructor per row of spec/opcode_table.json (spec/30_encoding.md R67),
with the fields of R62 as their operands. -/

namespace Sys2Proof

/-- An instruction. `x`, `y` are register indexes, `n`, `nn`, `nnn` the immediates. `seVxVy` and `sneVxVy` keep the
nibble N that their classes do not examine (R68), so that an instruction is exactly an opcode the hardware knows. -/
inductive Instr where
  /-- 00E0 -/
  | cls
  /-- 00EE -/
  | ret
  /-- 1NNN -/
  | jp (nnn : Addr12)
  /-- 2NNN -/
  | call (nnn : Addr12)
  /-- 3XNN -/
  | seVxNn (x : Nibble) (nn : Byte)
  /-- 4XNN -/
  | sneVxNn (x : Nibble) (nn : Byte)
  /-- 5XY0, and 5XYN for every N -/
  | seVxVy (x y n : Nibble)
  /-- 6XNN -/
  | ldVxNn (x : Nibble) (nn : Byte)
  /-- 7XNN -/
  | addVxNn (x : Nibble) (nn : Byte)
  /-- 8XY0 -/
  | ldVxVy (x y : Nibble)
  /-- 8XY1 -/
  | orVxVy (x y : Nibble)
  /-- 8XY2 -/
  | andVxVy (x y : Nibble)
  /-- 8XY3 -/
  | xorVxVy (x y : Nibble)
  /-- 8XY4 -/
  | addVxVy (x y : Nibble)
  /-- 8XY5 -/
  | subVxVy (x y : Nibble)
  /-- 8XY6 -/
  | shrVxVy (x y : Nibble)
  /-- 8XY7 -/
  | subnVxVy (x y : Nibble)
  /-- 8XYE -/
  | shlVxVy (x y : Nibble)
  /-- 9XY0, and 9XYN for every N -/
  | sneVxVy (x y n : Nibble)
  /-- ANNN -/
  | ldINnn (nnn : Addr12)
  /-- BNNN -/
  | jpV0Nnn (nnn : Addr12)
  /-- CXNN -/
  | rndVxNn (x : Nibble) (nn : Byte)
  /-- DXYN -/
  | drw (x y n : Nibble)
  /-- EX9E -/
  | skpVx (x : Nibble)
  /-- EXA1 -/
  | sknpVx (x : Nibble)
  /-- FX07 -/
  | ldVxDt (x : Nibble)
  /-- FX0A -/
  | ldVxK (x : Nibble)
  /-- FX15 -/
  | ldDtVx (x : Nibble)
  /-- FX18 -/
  | ldStVx (x : Nibble)
  /-- FX1E -/
  | addIVx (x : Nibble)
  /-- FX29 -/
  | ldFVx (x : Nibble)
  /-- FX33 -/
  | ldBVx (x : Nibble)
  /-- FX55 -/
  | ldMemVx (x : Nibble)
  /-- FX65 -/
  | ldVxMem (x : Nibble)
  deriving DecidableEq, Repr

end Sys2Proof
end

