-- ==== Sys2Proof/WellFormed.lean ====
section
/-! DEFINITION. Which instructions are canonical. The types of the operands already bound every field (a register
index is 4 bits), so the one thing left to check is the nibble that classes 5 and 9 ignore: "The canonical encodings,
the ones an assembler emits, have N = 0" (spec/30_encoding.md R68). The machine runs the others too (decision D9);
spec/93_implementation_defined.md U3 offers this check on a program's text to a claim that wants to rest on the source
alone (log entry 11). -/

namespace Sys2Proof

/-- The instruction is one an assembler emits: N = 0 in 5XYN and 9XYN (R68, U3). -/
def Instr.wellFormed : Instr → Bool
  | .seVxVy _ _ n => n == 0
  | .sneVxVy _ _ n => n == 0
  | .cls => true
  | .ret => true
  | .jp _ => true
  | .call _ => true
  | .seVxNn _ _ => true
  | .sneVxNn _ _ => true
  | .ldVxNn _ _ => true
  | .addVxNn _ _ => true
  | .ldVxVy _ _ => true
  | .orVxVy _ _ => true
  | .andVxVy _ _ => true
  | .xorVxVy _ _ => true
  | .addVxVy _ _ => true
  | .subVxVy _ _ => true
  | .shrVxVy _ _ => true
  | .subnVxVy _ _ => true
  | .shlVxVy _ _ => true
  | .ldINnn _ => true
  | .jpV0Nnn _ => true
  | .rndVxNn _ _ => true
  | .drw _ _ _ => true
  | .skpVx _ => true
  | .sknpVx _ => true
  | .ldVxDt _ => true
  | .ldVxK _ => true
  | .ldDtVx _ => true
  | .ldStVx _ => true
  | .addIVx _ => true
  | .ldFVx _ => true
  | .ldBVx _ => true
  | .ldMemVx _ => true
  | .ldVxMem _ => true

end Sys2Proof
end

