-- ==== Sys2Proof/Decode.lean ====
section
/-! DEFINITION. Decoding (spec/30_encoding.md R60 to R72) and, after it, the encoder. An opcode is a 16-bit word; the
six fields of R62 are pulled out here and nowhere else. -/

namespace Sys2Proof

/-! ### Fields (R62) -/

/-- class: op[15:12]. -/
def classOf (op : Word) : Nibble := op.extractLsb' 12 4
/-- X: op[11:8]. -/
def xOf (op : Word) : Nibble := op.extractLsb' 8 4
/-- Y: op[7:4]. -/
def yOf (op : Word) : Nibble := op.extractLsb' 4 4
/-- N: op[3:0]. -/
def nOf (op : Word) : Nibble := op.extractLsb' 0 4
/-- NN: op[7:0]. -/
def nnOf (op : Word) : Byte := op.extractLsb' 0 8
/-- NNN: op[11:0]. -/
def nnnOf (op : Word) : Addr12 := op.extractLsb' 0 12

/-! ### Byte order (spec/20_memory.md R44) -/

/-- The opcode made of the byte at PC and the byte at PC + 1 (R44, decision D1). -/
def opcodeOfBytes (first second : Byte) : Word :=
  if Config.instrBigEndian then first ++ second else second ++ first

/-- The two bytes of an opcode in address order. -/
def bytesOfOpcode (op : Word) : List Byte :=
  if Config.instrBigEndian then [op.extractLsb' 8 8, op.extractLsb' 0 8]
  else [op.extractLsb' 0 8, op.extractLsb' 8 8]

/-! ### Dispatch (R66, R67) -/

/-- Why bytes are no instruction. -/
inductive Reject where
  /-- The opcode selects no row of R67 (R69). -/
  | unknownOpcode (op : Word)
  /-- Fewer than the two bytes that every instruction has (R61). -/
  | tooFewBytes
  deriving DecidableEq, Repr

/-- Class 0x0: the selector is the full opcode (R66, R71). -/
def decodeFull (op : Word) : Except Reject Instr :=
  if op = 0x00E0 then .ok .cls
  else if op = 0x00EE then .ok .ret
  else .error (.unknownOpcode op)

/-- Class 0x8: the selector is N (R66, R132). -/
def decodeAlu (op : Word) : Except Reject Instr :=
  match nOf op with
  | 0x0 => .ok (.ldVxVy (xOf op) (yOf op))
  | 0x1 => .ok (.orVxVy (xOf op) (yOf op))
  | 0x2 => .ok (.andVxVy (xOf op) (yOf op))
  | 0x3 => .ok (.xorVxVy (xOf op) (yOf op))
  | 0x4 => .ok (.addVxVy (xOf op) (yOf op))
  | 0x5 => .ok (.subVxVy (xOf op) (yOf op))
  | 0x6 => .ok (.shrVxVy (xOf op) (yOf op))
  | 0x7 => .ok (.subnVxVy (xOf op) (yOf op))
  | 0xE => .ok (.shlVxVy (xOf op) (yOf op))
  | _ => .error (.unknownOpcode op)

/-- Class 0xE: the selector is NN (R66, 90_conflicts C8). -/
def decodeKey (op : Word) : Except Reject Instr :=
  match nnOf op with
  | 0x9E => .ok (.skpVx (xOf op))
  | 0xA1 => .ok (.sknpVx (xOf op))
  | _ => .error (.unknownOpcode op)

/-- Class 0xF: the selector is NN (R66, 90_conflicts C8). -/
def decodeMisc (op : Word) : Except Reject Instr :=
  match nnOf op with
  | 0x07 => .ok (.ldVxDt (xOf op))
  | 0x0A => .ok (.ldVxK (xOf op))
  | 0x15 => .ok (.ldDtVx (xOf op))
  | 0x18 => .ok (.ldStVx (xOf op))
  | 0x1E => .ok (.addIVx (xOf op))
  | 0x29 => .ok (.ldFVx (xOf op))
  | 0x33 => .ok (.ldBVx (xOf op))
  | 0x55 => .ok (.ldMemVx (xOf op))
  | 0x65 => .ok (.ldVxMem (xOf op))
  | _ => .error (.unknownOpcode op)

/-- Classes 5 and 9: no selector, unless STRICT_5_9 (R68, decision D9). -/
def decodeSkipReg (op : Word) (i : Instr) : Except Reject Instr :=
  if Config.strict59 && nOf op != 0 then .error (.unknownOpcode op) else .ok i

/-- Decoding of one opcode: first on the class, then for the classes 0x0, 0x8, 0xE, 0xF on a selector (R66, R67).
Total on all 65536 opcodes (R63); what selects no row is rejected by name (R69). -/
def decode (op : Word) : Except Reject Instr :=
  match classOf op with
  | 0x0 => decodeFull op
  | 0x1 => .ok (.jp (nnnOf op))
  | 0x2 => .ok (.call (nnnOf op))
  | 0x3 => .ok (.seVxNn (xOf op) (nnOf op))
  | 0x4 => .ok (.sneVxNn (xOf op) (nnOf op))
  | 0x5 => decodeSkipReg op (.seVxVy (xOf op) (yOf op) (nOf op))
  | 0x6 => .ok (.ldVxNn (xOf op) (nnOf op))
  | 0x7 => .ok (.addVxNn (xOf op) (nnOf op))
  | 0x8 => decodeAlu op
  | 0x9 => decodeSkipReg op (.sneVxVy (xOf op) (yOf op) (nOf op))
  | 0xA => .ok (.ldINnn (nnnOf op))
  | 0xB => .ok (.jpV0Nnn (nnnOf op))
  | 0xC => .ok (.rndVxNn (xOf op) (nnOf op))
  | 0xD => .ok (.drw (xOf op) (yOf op) (nOf op))
  | 0xE => decodeKey op
  | _ => decodeMisc op -- 0xF, the one class left

/-- Decoding the head of a byte string: the instruction and the bytes after it (R61: always two bytes). -/
def decodeBytes : List Byte → Except Reject (Instr × List Byte)
  | first :: second :: rest =>
    match decode (opcodeOfBytes first second) with
    | .ok i => .ok (i, rest)
    | .error e => .error e
  | _ => .error .tooFewBytes

/-- The opcode that a word of `nbits` bits of spec/opcode_table.json's numbering stands for: bits from `nbits` up are 0,
and no instruction is longer than 16 bits. -/
def tableOpcode (nbits w : Nat) : Word := BitVec.ofNat 16 (w % 2 ^ nbits)

/-- The instruction the decoder reads from the bytes of a word of the opcode table, laid out as in memory. -/
def decodeTableWord (nbits w : Nat) : Option Instr :=
  match decodeBytes (bytesOfOpcode (tableOpcode nbits w)) with
  | .ok (i, _) => some i
  | .error _ => none

/-! ### Encoding (R65) -/

/-- Formats `XYN`, `Xss` and `OP`: four nibbles from bit 15 down. -/
def encodeNibbles (c x y n : Nibble) : Word := c ++ x ++ y ++ n
/-- Format `XNN`, and `Xss` with NN as the selector. -/
def encodeXNN (c x : Nibble) (nn : Byte) : Word := c ++ x ++ nn
/-- Format `NNN`. -/
def encodeNNN (c : Nibble) (nnn : Addr12) : Word := c ++ nnn

/-- The opcode of an instruction (R65, R67). -/
def encode : Instr → Word
  | .cls => encodeNibbles 0x0 0x0 0xE 0x0
  | .ret => encodeNibbles 0x0 0x0 0xE 0xE
  | .jp nnn => encodeNNN 0x1 nnn
  | .call nnn => encodeNNN 0x2 nnn
  | .seVxNn x nn => encodeXNN 0x3 x nn
  | .sneVxNn x nn => encodeXNN 0x4 x nn
  | .seVxVy x y n => encodeNibbles 0x5 x y n
  | .ldVxNn x nn => encodeXNN 0x6 x nn
  | .addVxNn x nn => encodeXNN 0x7 x nn
  | .ldVxVy x y => encodeNibbles 0x8 x y 0x0
  | .orVxVy x y => encodeNibbles 0x8 x y 0x1
  | .andVxVy x y => encodeNibbles 0x8 x y 0x2
  | .xorVxVy x y => encodeNibbles 0x8 x y 0x3
  | .addVxVy x y => encodeNibbles 0x8 x y 0x4
  | .subVxVy x y => encodeNibbles 0x8 x y 0x5
  | .shrVxVy x y => encodeNibbles 0x8 x y 0x6
  | .subnVxVy x y => encodeNibbles 0x8 x y 0x7
  | .shlVxVy x y => encodeNibbles 0x8 x y 0xE
  | .sneVxVy x y n => encodeNibbles 0x9 x y n
  | .ldINnn nnn => encodeNNN 0xA nnn
  | .jpV0Nnn nnn => encodeNNN 0xB nnn
  | .rndVxNn x nn => encodeXNN 0xC x nn
  | .drw x y n => encodeNibbles 0xD x y n
  | .skpVx x => encodeXNN 0xE x 0x9E
  | .sknpVx x => encodeXNN 0xE x 0xA1
  | .ldVxDt x => encodeXNN 0xF x 0x07
  | .ldVxK x => encodeXNN 0xF x 0x0A
  | .ldDtVx x => encodeXNN 0xF x 0x15
  | .ldStVx x => encodeXNN 0xF x 0x18
  | .addIVx x => encodeXNN 0xF x 0x1E
  | .ldFVx x => encodeXNN 0xF x 0x29
  | .ldBVx x => encodeXNN 0xF x 0x33
  | .ldMemVx x => encodeXNN 0xF x 0x55
  | .ldVxMem x => encodeXNN 0xF x 0x65

/-- The bytes of an instruction, as they lie in memory. -/
def encodeBytes (i : Instr) : List Byte := bytesOfOpcode (encode i)

/-! ### The opcode map as a table (R67), independent of the two functions above -/

/-- One row of R67: an opcode `op` selects it iff `op & mask = bits`. -/
structure OpcodeRow where
  mask : Word
  bits : Word
  deriving DecidableEq, Repr

/-- `op & mask = match` (R67). -/
def OpcodeRow.selects (r : OpcodeRow) (op : Word) : Bool := op &&& r.mask == r.bits

/-- The row of R67 an instruction stands in. -/
def Instr.row : Instr → OpcodeRow
  | .cls => ⟨0xFFFF, 0x00E0⟩
  | .ret => ⟨0xFFFF, 0x00EE⟩
  | .jp _ => ⟨0xF000, 0x1000⟩
  | .call _ => ⟨0xF000, 0x2000⟩
  | .seVxNn _ _ => ⟨0xF000, 0x3000⟩
  | .sneVxNn _ _ => ⟨0xF000, 0x4000⟩
  | .seVxVy _ _ _ => ⟨0xF000, 0x5000⟩
  | .ldVxNn _ _ => ⟨0xF000, 0x6000⟩
  | .addVxNn _ _ => ⟨0xF000, 0x7000⟩
  | .ldVxVy _ _ => ⟨0xF00F, 0x8000⟩
  | .orVxVy _ _ => ⟨0xF00F, 0x8001⟩
  | .andVxVy _ _ => ⟨0xF00F, 0x8002⟩
  | .xorVxVy _ _ => ⟨0xF00F, 0x8003⟩
  | .addVxVy _ _ => ⟨0xF00F, 0x8004⟩
  | .subVxVy _ _ => ⟨0xF00F, 0x8005⟩
  | .shrVxVy _ _ => ⟨0xF00F, 0x8006⟩
  | .subnVxVy _ _ => ⟨0xF00F, 0x8007⟩
  | .shlVxVy _ _ => ⟨0xF00F, 0x800E⟩
  | .sneVxVy _ _ _ => ⟨0xF000, 0x9000⟩
  | .ldINnn _ => ⟨0xF000, 0xA000⟩
  | .jpV0Nnn _ => ⟨0xF000, 0xB000⟩
  | .rndVxNn _ _ => ⟨0xF000, 0xC000⟩
  | .drw _ _ _ => ⟨0xF000, 0xD000⟩
  | .skpVx _ => ⟨0xF0FF, 0xE09E⟩
  | .sknpVx _ => ⟨0xF0FF, 0xE0A1⟩
  | .ldVxDt _ => ⟨0xF0FF, 0xF007⟩
  | .ldVxK _ => ⟨0xF0FF, 0xF00A⟩
  | .ldDtVx _ => ⟨0xF0FF, 0xF015⟩
  | .ldStVx _ => ⟨0xF0FF, 0xF018⟩
  | .addIVx _ => ⟨0xF0FF, 0xF01E⟩
  | .ldFVx _ => ⟨0xF0FF, 0xF029⟩
  | .ldBVx _ => ⟨0xF0FF, 0xF033⟩
  | .ldMemVx _ => ⟨0xF0FF, 0xF055⟩
  | .ldVxMem _ => ⟨0xF0FF, 0xF065⟩

/-- The 34 rows of R67, in its order. -/
def opcodeTable : List OpcodeRow :=
  [⟨0xFFFF, 0x00E0⟩, ⟨0xFFFF, 0x00EE⟩, ⟨0xF000, 0x1000⟩, ⟨0xF000, 0x2000⟩, ⟨0xF000, 0x3000⟩, ⟨0xF000, 0x4000⟩,
   ⟨0xF000, 0x5000⟩, ⟨0xF000, 0x6000⟩, ⟨0xF000, 0x7000⟩] ++
  [⟨0xF00F, 0x8000⟩, ⟨0xF00F, 0x8001⟩, ⟨0xF00F, 0x8002⟩, ⟨0xF00F, 0x8003⟩, ⟨0xF00F, 0x8004⟩, ⟨0xF00F, 0x8005⟩,
   ⟨0xF00F, 0x8006⟩, ⟨0xF00F, 0x8007⟩, ⟨0xF00F, 0x800E⟩] ++
  [⟨0xF000, 0x9000⟩, ⟨0xF000, 0xA000⟩, ⟨0xF000, 0xB000⟩, ⟨0xF000, 0xC000⟩, ⟨0xF000, 0xD000⟩] ++
  [⟨0xF0FF, 0xE09E⟩, ⟨0xF0FF, 0xE0A1⟩, ⟨0xF0FF, 0xF007⟩, ⟨0xF0FF, 0xF00A⟩, ⟨0xF0FF, 0xF015⟩, ⟨0xF0FF, 0xF018⟩,
   ⟨0xF0FF, 0xF01E⟩, ⟨0xF0FF, 0xF029⟩, ⟨0xF0FF, 0xF033⟩, ⟨0xF0FF, 0xF055⟩, ⟨0xF0FF, 0xF065⟩]

end Sys2Proof
end

