-- ==== Sys2Proof/Machine/State.lean ====
section
/-! DEFINITION. The state of the machine: the tuple that opens spec/10_state.md, field by field, and the input and
output of a step, which the host's interface leaves no other place for. Plain data. -/

namespace Sys2Proof.Machine

/-- Memory: the bytes that differ from the reset contents, by rising address (spec/20_memory.md R40, R41; log entry
29). What an unlisted address reads as, and the canonical form, are in Machine/Ops.lean. -/
abbrev Memory := List Host.Cell

/-- The framebuffer, 32 rows of 64 one-bit pixels, the row index first ("row-major", R23). -/
abbrev Framebuffer := Vector (Vector Bool 64) 32

/-- The execution mode, "enum {Running, WaitingForKey(register)}" (R25). -/
inductive Mode where
  | running
  | waitingForKey (x : Nibble)
  deriving DecidableEq, Repr

/-- A report, the optional output of a step (spec/60_exceptions.md R211). -/
inductive Report where
  /-- The opcode matches no row of R67; it records the opcode as fetched. -/
  | unknownOpcode (op : Word)
  /-- 2NNN with SP = 16. -/
  | stackOverflow
  /-- 00EE with SP = 0. -/
  | stackUnderflow
  /-- A step in Running mode finds PC > 4094; it records PC. -/
  | pcOutOfRange (pc : Word)
  /-- A data access range leaves memory or a write range touches the font; it records the lowest offending address. -/
  | illegalMemAccess (addr : Nat)
  /-- EX9E or EXA1 with VX > 15; it records VX. -/
  | keyIndexOutOfRange (v : Byte)
  deriving DecidableEq, Repr

/-- The whole state. -/
structure State where
  /-- mem[0..4095] (R27). -/
  mem : Memory
  /-- V0..VF (R10, R11). -/
  v : Vector Byte 16
  /-- The index register I (R15). -/
  i : Word
  /-- The program counter PC (R16). -/
  pc : Word
  /-- The call stack's entries (R19). -/
  stack : Vector Word 16
  /-- SP, the number of live entries, 0..16 (R20). -/
  sp : Fin 17
  /-- The delay timer DT (R21). -/
  dt : Byte
  /-- The sound timer ST (R22). -/
  st : Byte
  /-- The framebuffer (R23). -/
  fb : Framebuffer
  /-- The keypad latch, true = pressed (R24). -/
  key : Vector Bool 16
  /-- MODE (R25). -/
  mode : Mode
  /-- The draw flag DRAW (R26). -/
  draw : Bool
  /-- The model's own: the output of the latest step (R8 `report`; no step reads it, R28; log entry 23). -/
  report : Option Report
  /-- The model's own: the byte the Scheduler presents as `rnd`, or none where it is left free (R75; log entry 20). -/
  rndIn : Option Byte
  /-- The model's own: how many random bytes have been drawn (log entry 20). -/
  rndCount : Nat
  deriving DecidableEq, Repr

/-- Why the machine stops with a fault: never. "No condition in the core is fatal to the process; the core never exits
or aborts itself" (R210), so there is no constructor; every condition the spec names is a `Report` of a next state. -/
inductive Fault
  deriving DecidableEq, Repr

/-- Why an instruction has no meaning. -/
inductive Refusal where
  /-- Raised by an arm of `exec` whose instruction has no meaning yet: no arm does. Safe. -/
  | notModelled (mnemonic : String)
  deriving DecidableEq, Repr

/-- What a step, or an instruction's meaning, answers. -/
abbrev Result := Host.Outcome State Fault Refusal

/-- The state after construction (R29, spec/70_reset_and_hazards.md R251): all zero, PC = 0x200, the font in memory
(memory lists nothing, and an unlisted address reads as its reset contents). The last three fields are the model's own
(DESIGN CHOICE, log entries 20 and 23). -/
def State.reset : State where
  mem := []
  v := Vector.replicate 16 0
  i := 0
  pc := 0x200
  stack := Vector.replicate 16 0
  sp := 0
  dt := 0
  st := 0
  fb := Vector.replicate 32 (Vector.replicate 64 false)
  key := Vector.replicate 16 false
  mode := .running
  draw := false
  report := none
  rndIn := none
  rndCount := 0

end Sys2Proof.Machine
end

