-- ==== Sys2Proof/Machine/Ops.lean ====
section
/-! DEFINITION. The named operations over memory, registers, stack and program counter, and taking a report. -/

namespace Sys2Proof.Machine

/-! ### Memory (spec/20_memory.md) -/

/-- The reset contents of an address, which an unlisted address reads as: the font, then zeros (10_state R29). -/
def resetByte (a : Nat) : Byte := if a < Config.fontEnd then (Config.font[a]?).getD 0 else 0

/-- The byte at an address (R8 `MemRead`, one byte). -/
def Memory.read : Memory → Nat → Byte
  | [], a => resetByte a
  | (k, b) :: m, a => if k = a then b else Memory.read m a

/-- A cell in front of a memory, unless it says what an unlisted address says. -/
def Memory.cons (a : Nat) (b : Byte) (m : Memory) : Memory := if b = resetByte a then m else (a, b) :: m

/-- A byte written at an address (R8 `MemWrite`), keeping the canonical form. -/
def Memory.write : Memory → Nat → Byte → Memory
  | [], a, b => Memory.cons a b []
  | (k, c) :: m, a, b =>
    if a < k then Memory.cons a b ((k, c) :: m)
    else if a = k then Memory.cons a b m
    else (k, c) :: Memory.write m a b

/-- Bytes written at `base`, `base + 1`, … in order (R46). -/
def Memory.writeBytes : Memory → Nat → List Byte → Memory
  | m, _, [] => m
  | m, base, b :: bs => Memory.writeBytes (m.write base b) (base + 1) bs

/-- The canonical form from an address on: addresses strictly rising and inside memory, no cell that says what an
unlisted address says. -/
def Memory.wfFrom : Nat → Memory → Bool
  | _, [] => true
  | lo, (k, b) :: m => decide (lo ≤ k) && decide (k < Config.memSize) && b != resetByte k && Memory.wfFrom (k + 1) m

/-- The canonical form of a memory. -/
def Memory.wf (m : Memory) : Bool := Memory.wfFrom 0 m

/-- mem[a]. -/
def State.readMem (s : State) (a : Nat) : Byte := Memory.read s.mem a

/-- The bytes stored at `base` onward. -/
def State.storeBytes (s : State) (base : Nat) (bs : List Byte) : State :=
  { s with mem := Memory.writeBytes s.mem base bs }

/-- The address IllegalMemAccess reports for a read of `len` bytes at `base`: the lowest of the range that exceeds
4095, if there is one (R48). -/
def readRangeError (base len : Nat) : Option Nat :=
  if 1 ≤ len ∧ Config.memSize < base + len then some (max base Config.memSize) else none

/-- The address IllegalMemAccess reports for a write of `len` bytes at `base`: the lowest of the range that is in the
font or exceeds 4095, if there is one (R49). -/
def writeRangeError (base len : Nat) : Option Nat :=
  if base < Config.fontEnd then some base else readRangeError base len

/-! ### General registers (spec/10_state.md R10, R11) -/

/-- V[r]. -/
def State.getV (s : State) (r : Nibble) : Byte := s.v[r.toNat]'r.isLt

/-- V[r] <- b. -/
def State.setV (s : State) (r : Nibble) (b : Byte) : State := { s with v := s.v.set r.toNat b r.isLt }

/-- VF. -/
abbrev flagReg : Nibble := 0xF

/-- The result to VX and the flag to VF, in the order of FLAG_WRITTEN_LAST: the flag wins when X = F (R14). -/
def State.setResultAndFlag (s : State) (x : Nibble) (result flag : Byte) : State :=
  if Config.flagWrittenLast then (s.setV x result).setV flagReg flag else (s.setV flagReg flag).setV x result

/-- V0 .. V(n-1), a register dump's bytes (42_index_and_memory R155). -/
def State.firstRegs (s : State) (n : Nat) : List Byte := s.v.toList.take n

/-- V[k] <- mem[base + k] for k = 0 .. n-1 (42_index_and_memory R156). -/
def loadRegs (m : Memory) (base : Nat) : Nat → Vector Byte 16 → Vector Byte 16
  | 0, v => v
  | n + 1, v => (loadRegs m base n v).setIfInBounds n (Memory.read m (base + n))

/-! ### Program counter (spec/10_state.md R17) -/

/-- `next`: the address of the instruction after the one at PC (R8). -/
def State.next (s : State) : Word := s.pc + Config.instrBytes

/-- pc <- target. -/
def State.setPc (s : State) (target : Word) : State := { s with pc := target }

/-- The default advance: pc <- next. -/
def State.advance (s : State) : State := s.setPc s.next

/-- A conditional skip: pc <- next + 2 if the condition holds, else next (40_control_flow R104 to R107). -/
def State.skipIf (s : State) (c : Bool) : State := s.setPc (if c then s.next + Config.instrBytes else s.next)

/-! ### Call stack (spec/10_state.md R19, R20) -/

/-- The state after a push, or none when the stack is full. -/
def State.push (s : State) (w : Word) : Option State :=
  if h : s.sp.val < Config.stackDepth then
    some { s with stack := s.stack.set s.sp.val w h, sp := ⟨s.sp.val + 1, Nat.succ_lt_succ h⟩ }
  else none

/-- The popped entry and the state after the pop, or none when the stack is empty. -/
def State.pop (s : State) : Option (Word × State) :=
  match s.sp with
  | ⟨0, _⟩ => none
  | ⟨k + 1, h⟩ => some (s.stack[k]'(Nat.lt_of_succ_lt_succ h), { s with sp := ⟨k, Nat.lt_of_succ_lt h⟩ })

/-! ### Keypad latch (spec/10_state.md R24) -/

/-- key[k]. -/
def State.getKey (s : State) (k : Nibble) : Bool := s.key[k.toNat]'k.isLt

/-- key[k] <- p. -/
def State.setKeySlot (s : State) (k : Nibble) (p : Bool) : State := { s with key := s.key.set k.toNat p k.isLt }

/-! ### Reports (spec/60_exceptions.md): this hardware's exceptions -/

/-- Where PC goes when a step raises a report (R212): nowhere for PcOutOfRange, on by 2 for every other kind. -/
def Report.recoveryPc : Report → Word → Word
  | .pcOutOfRange _, pc => pc
  | .unknownOpcode _, pc => pc + Config.unknownOpcodeAdvance
  | .stackUnderflow, pc => pc + Config.underflowAdvance
  | .stackOverflow, pc => pc + Config.instrBytes
  | .illegalMemAccess _, pc => pc + Config.instrBytes
  | .keyIndexOutOfRange _, pc => pc + Config.instrBytes

/-- The numeric code of a report kind (R211). -/
def Report.code : Report → Nat
  | .unknownOpcode _ => 1
  | .stackOverflow => 2
  | .stackUnderflow => 3
  | .pcOutOfRange _ => 4
  | .illegalMemAccess _ => 5
  | .keyIndexOutOfRange _ => 6

/-- Taking a report, the one place every condition goes through: the report is the step's output, PC makes its
recovery move, and nothing else changes; nothing is saved and no handler is entered (R8 `raise`, R212, R220). There is
no return from a report (R221). -/
def State.takeReport (s : State) (r : Report) : State :=
  { s with report := some r, pc := r.recoveryPc s.pc }

/-- A meaning that ends by raising a report. -/
def raise (r : Report) (s : State) : Result := .next (s.takeReport r)

/-- A meaning that ends in a report if a range check found an illegal address, and goes on otherwise (R48, R49). -/
def orIllegal (check : Option Nat) (s : State) (body : State) : Result :=
  match check with
  | some a => raise (.illegalMemAccess a) s
  | none => .next body

/-- `report <- None`, the first act of every step (30_encoding R75). -/
def State.clearReport (s : State) : State := { s with report := none }

/-! ### Fetch (spec/30_encoding.md R60) -/

/-- The opcode at an address, from the two bytes there (R44, R60). -/
def State.opcodeAt (s : State) (a : Nat) : Word := opcodeOfBytes (s.readMem a) (s.readMem (a + 1))

/-- The opcode at PC. -/
def State.opcode (s : State) : Word := s.opcodeAt s.pc.toNat

/-- PC is one a step fetches from: PC <= 4094, no lower bound, no alignment (10_state R18, decision D4). -/
def State.pcFetchable (s : State) : Bool := decide (s.pc.toNat ≤ Config.pcMaxFetch)

/-! ### The random input of a step (spec/41_load_and_alu.md R146) -/

/-- `rnd`: the byte the Scheduler presents, or a free value where it names none. -/
def State.rnd (s : State) : Byte := s.rndIn.getD (Config.randomByte s.rndCount)

/-- The random byte has been used: the next one is another free value. -/
def State.drawRandom (s : State) : State := { s with rndCount := s.rndCount + 1 }

end Sys2Proof.Machine
end

