-- ==== Sys2Proof/Machine/Operands.lean ====
section
/-! DEFINITION. The operand forms (spec/30_encoding.md R64, R65): registers are read through `State.getV`; NN stands as
it is; NNN is zero-extended; a memory operand is I plus a constant (spec/20_memory.md R50). -/

namespace Sys2Proof.Machine

/-- NNN as a 16-bit PC or I value: zero-extended, never scaled (R64). -/
def addrOfNnn (nnn : Addr12) : Word := nnn.zeroExtend 16

/-- A register's value zero-extended to 16 bits. -/
def wordOfByte (b : Byte) : Word := b.zeroExtend 16

/-- The effective address I + k, an unbounded number, never reduced (20_memory R50). -/
def State.effAddr (s : State) (k : Nat) : Nat := s.i.toNat + k

/-- How many registers V0..VX an FX55 or FX65 moves: X + 1 (R155, R156). -/
def regCount (x : Nibble) : Nat := x.toNat + 1

/-- A register's value as an index into the keypad latch, if it is one (44_timers_and_keypad R191, decision D12). -/
def keyIndex (v : Byte) : Option Nibble := if 15 < v.toNat then none else some (v.setWidth 4)

/-- The decimal digits of a byte: hundreds, tens, units (42_index_and_memory R154). -/
def bcdDigits (v : Byte) : List Byte :=
  [BitVec.ofNat 8 (v.toNat / 100), BitVec.ofNat 8 (v.toNat / 10 % 10), BitVec.ofNat 8 (v.toNat % 10)]

/-- The address of a digit's glyph: VX times 5 (R153), of all 8 bits of VX unless FX29_MASK_NIBBLE (decision D28). -/
def glyphAddr (v : Byte) : Word := wordOfByte (if Config.fx29MaskNibble then v &&& 0x0F else v) * 5

/-- The column a sprite starts at: VX mod 64 (43_display R176). -/
def spriteX (v : Byte) : Nat := v.toNat % 64

/-- The row a sprite starts at: VY mod 32 (43_display R176). -/
def spriteY (v : Byte) : Nat := v.toNat % 32

/-- The pixel of a sprite row at a bit offset 0..7: bit 7 of the byte is offset 0 (43_display R176, decision D15). -/
def spriteBit (row : Byte) (b : Nat) : Bool :=
  if Config.spriteMsbLeft then row.getLsbD (7 - b) else row.getLsbD b

end Sys2Proof.Machine
end

