-- ==== Sys2Proof/Machine/ControlFlow.lean ====
section
/-! DEFINITION. Control flow (spec/40_control_flow.md): 00EE, 1NNN, 2NNN, 3XNN, 4XNN, 5XY0, 9XY0, BNNN. -/

namespace Sys2Proof.Machine

/-- 00EE, return: PC is popped from the stack; an empty stack is reported (R101). -/
def execRet (s : State) : Result :=
  match s.pop with
  | some (target, s') => .next (s'.setPc target)
  | none => raise .stackUnderflow s

/-- 1NNN, jump (R102). -/
def execJp (nnn : Addr12) (s : State) : Result := .next (s.setPc (addrOfNnn nnn))

/-- 2NNN, call: `next` is pushed; a full stack is reported and the call skipped (R103). -/
def execCall (nnn : Addr12) (s : State) : Result :=
  match s.push s.next with
  | some s' => .next (s'.setPc (addrOfNnn nnn))
  | none => raise .stackOverflow s

/-- 3XNN, skip if VX = NN (R104). -/
def execSeVxNn (x : Nibble) (nn : Byte) (s : State) : Result := .next (s.skipIf (s.getV x == nn))

/-- 4XNN, skip if VX ≠ NN (R105). -/
def execSneVxNn (x : Nibble) (nn : Byte) (s : State) : Result := .next (s.skipIf (s.getV x != nn))

/-- 5XYN, skip if VX = VY; N is not examined (R106, R68). -/
def execSeVxVy (x y : Nibble) (s : State) : Result := .next (s.skipIf (s.getV x == s.getV y))

/-- 9XYN, skip if VX ≠ VY; N is not examined (R107, R68). -/
def execSneVxVy (x y : Nibble) (s : State) : Result := .next (s.skipIf (s.getV x != s.getV y))

/-- BNNN, jump to NNN + V0, not reduced (R108, decision D30). -/
def execJpV0Nnn (nnn : Addr12) (s : State) : Result :=
  .next (s.setPc (addrOfNnn nnn + wordOfByte (s.getV 0)))

end Sys2Proof.Machine
end

