-- ==== Sys2Proof/Machine/Flags.lean ====
section
/-! DEFINITION. Every value the machine writes to VF as a flag (spec/10_state.md R11): carry, no borrow, the bit
shifted out. (The sprite's collision flag is accumulated by the drawing loop of Machine/Display.lean.) -/

namespace Sys2Proof.Machine

/-- A flag in a register: exactly 0 or 1, zero-extended to 8 bits (R11). -/
def flagByte (c : Bool) : Byte := if c then 1 else 0

/-- 8XY4's carry: the unclamped sum exceeds 255 (41_load_and_alu R127). -/
def carry (x y : Byte) : Bool := decide (255 < x.toNat + y.toNat)

/-- "No borrow" of minuend − subtrahend (41_load_and_alu R128, R130). -/
def noBorrow (minuend subtrahend : Byte) : Bool := decide (subtrahend.toNat ≤ minuend.toNat)

/-- The bit a right shift by one moves out: bit 0 (41_load_and_alu R129). -/
def outRight (y : Byte) : Bool := y.getLsbD 0

/-- The bit a left shift by one moves out: bit 7 (41_load_and_alu R131). -/
def outLeft (y : Byte) : Bool := y.getLsbD 7

end Sys2Proof.Machine
end

