-- ==== Sys2Proof/Machine/Display.lean ====
section
/-! DEFINITION. Display instructions and the sprite collision detector (spec/43_display.md): 00E0, DXYN. -/

namespace Sys2Proof.Machine

/-- fb[x][y], and false off the screen (R23). -/
def pixel (fb : Framebuffer) (x y : Nat) : Bool :=
  if h : x < 64 ∧ y < 32 then (fb[y]'h.2)[x]'h.1 else false

/-- fb[x][y] <- fb[x][y] ^ 1 (nothing off the screen). -/
def togglePixel (fb : Framebuffer) (x y : Nat) : Framebuffer :=
  if h : x < 64 ∧ y < 32 then fb.set y ((fb[y]'h.2).set x (!(fb[y]'h.2)[x]'h.1) h.1) h.2 else fb

/-- The cleared framebuffer. -/
def clearScreen : Framebuffer := Vector.replicate 32 (Vector.replicate 64 false)

/-- What the drawing loop carries: the framebuffer and the collision so far (R176, R177). -/
structure Canvas where
  fb : Framebuffer
  collision : Bool

/-- One set bit of a sprite: the pixel is toggled, and toggling a set pixel is a collision (R176). -/
def Canvas.plot (c : Canvas) (x y : Nat) : Canvas :=
  { fb := togglePixel c.fb x y, collision := c.collision || pixel c.fb x y }

/-- One sprite row at column `ox` of row `y`, over the bit offsets still to do; a pixel at x >= 64 ends the row. -/
def drawRow (row : Byte) (ox y : Nat) : List Nat → Canvas → Canvas
  | [], c => c
  | b :: bs, c =>
    if 64 ≤ ox + b then c
    else drawRow row ox y bs (if spriteBit row b then c.plot (ox + b) y else c)

/-- The bit offsets of a sprite row. -/
abbrev bitOffsets : List Nat := [0, 1, 2, 3, 4, 5, 6, 7]

/-- The sprite rows `r`, `r + 1`, … (`n` of them) at the origin (`ox`, `oy`), read from memory at `base + r`; a row at
y >= 32 ends the drawing. -/
def drawRows (m : Memory) (base ox oy : Nat) : Nat → Nat → Canvas → Canvas
  | 0, _, c => c
  | n + 1, r, c =>
    if 32 ≤ oy + r then c
    else drawRows m base ox oy n (r + 1) (drawRow (Memory.read m (base + r)) ox (oy + r) bitOffsets c)

/-- The canvas after a DXYN that raises nothing: the origin comes from the old VX and VY (10_state R14). -/
def State.drawSprite (s : State) (x y n : Nibble) : Canvas :=
  drawRows s.mem (s.effAddr 0) (spriteX (s.getV x)) (spriteY (s.getV y)) n.toNat 0 ⟨s.fb, false⟩

/-- 00E0: every pixel cleared, a draw event marked (R171). -/
def execCls (s : State) : Result := .next { s with fb := clearScreen, draw := true }.advance

/-- DXYN: the sprite of N rows at I drawn by XOR, VF the collision, a draw event marked (R176). The range check covers
all N rows (decision D14). -/
def execDrw (x y n : Nibble) (s : State) : Result :=
  orIllegal (readRangeError (s.effAddr 0) n.toNat) s
    ({ s with fb := (s.drawSprite x y n).fb, draw := true }.setV flagReg
      (flagByte (s.drawSprite x y n).collision)).advance

end Sys2Proof.Machine
end

