-- ==== Sys2Proof/Machine/IndexMemory.lean ====
section
/-! DEFINITION. Index register and memory instructions (spec/42_index_and_memory.md): ANNN, FX1E, FX29, FX33, FX55,
FX65. The memory instructions leave I as it is (R150, decision D16). -/

namespace Sys2Proof.Machine

/-- An instruction that writes I and nothing else. -/
def writeI (w : Word) (s : State) : Result := .next { s with i := w }.advance

/-- The bytes stored at I onward, if every address of the range may be written, else the report (20_memory R49). -/
def storeAtI (bs : List Byte) (s : State) : Result :=
  orIllegal (writeRangeError (s.effAddr 0) bs.length) s (s.storeBytes (s.effAddr 0) bs).advance

/-- ANNN (R151). -/
def execLdINnn (nnn : Addr12) (s : State) : Result := writeI (addrOfNnn nnn) s

/-- FX1E: I + VX modulo 65536, no flag (R152, decision D3). -/
def execAddIVx (x : Nibble) (s : State) : Result := writeI (s.i + wordOfByte (s.getV x)) s

/-- FX29: the address of a digit's glyph (R153). -/
def execLdFVx (x : Nibble) (s : State) : Result := writeI (glyphAddr (s.getV x)) s

/-- FX33: the decimal digits of VX at I, I + 1, I + 2 (R154). -/
def execLdBVx (x : Nibble) (s : State) : Result := storeAtI (bcdDigits (s.getV x)) s

/-- FX55: V0..VX at I onward (R155). -/
def execLdMemVx (x : Nibble) (s : State) : Result := storeAtI (s.firstRegs (regCount x)) s

/-- FX65: V0..VX from I onward (R156). -/
def execLdVxMem (x : Nibble) (s : State) : Result :=
  orIllegal (readRangeError (s.effAddr 0) (regCount x)) s
    { s with v := loadRegs s.mem (s.effAddr 0) (regCount x) s.v }.advance

end Sys2Proof.Machine
end

