-- ==== Sys2Proof/Machine/LoadAlu.lean ====
section
/-! DEFINITION. Register load, arithmetic, logic, shift and random (spec/41_load_and_alu.md): 6XNN, 7XNN, 8XY0 to
8XY7, 8XYE, CXNN. Bit vector arithmetic is modulo 256, as R148 has it. -/

namespace Sys2Proof.Machine

/-- An instruction that writes VX and nothing else (R120). -/
def writeVx (x : Nibble) (b : Byte) (s : State) : Result := .next (s.setV x b).advance

/-- An instruction that writes VX, then VF (R120, 10_state R14). -/
def writeVxVf (x : Nibble) (b : Byte) (flag : Bool) (s : State) : Result :=
  .next (s.setResultAndFlag x b (flagByte flag)).advance

/-- 6XNN (R121). -/
def execLdVxNn (x : Nibble) (nn : Byte) (s : State) : Result := writeVx x nn s

/-- 7XNN, no flag (R122). -/
def execAddVxNn (x : Nibble) (nn : Byte) (s : State) : Result := writeVx x (s.getV x + nn) s

/-- 8XY0 (R123). -/
def execLdVxVy (x y : Nibble) (s : State) : Result := writeVx x (s.getV y) s

/-- 8XY1, no flag (R124). -/
def execOrVxVy (x y : Nibble) (s : State) : Result := writeVx x (s.getV x ||| s.getV y) s

/-- 8XY2, no flag (R125). -/
def execAndVxVy (x y : Nibble) (s : State) : Result := writeVx x (s.getV x &&& s.getV y) s

/-- 8XY3, no flag (R126). -/
def execXorVxVy (x y : Nibble) (s : State) : Result := writeVx x (s.getV x ^^^ s.getV y) s

/-- 8XY4, VF = carry (R127). -/
def execAddVxVy (x y : Nibble) (s : State) : Result :=
  writeVxVf x (s.getV x + s.getV y) (carry (s.getV x) (s.getV y)) s

/-- 8XY5, VX − VY, VF = no borrow (R128). -/
def execSubVxVy (x y : Nibble) (s : State) : Result :=
  writeVxVf x (s.getV x - s.getV y) (noBorrow (s.getV x) (s.getV y)) s

/-- 8XY6, VY shifted right into VX, VF = the bit shifted out (R129). -/
def execShrVxVy (x y : Nibble) (s : State) : Result := writeVxVf x (s.getV y >>> 1) (outRight (s.getV y)) s

/-- 8XY7, VY − VX, VF = no borrow (R130). -/
def execSubnVxVy (x y : Nibble) (s : State) : Result :=
  writeVxVf x (s.getV y - s.getV x) (noBorrow (s.getV y) (s.getV x)) s

/-- 8XYE, VY shifted left into VX, VF = the bit shifted out (R131). -/
def execShlVxVy (x y : Nibble) (s : State) : Result := writeVxVf x (s.getV y <<< 1) (outLeft (s.getV y)) s

/-- CXNN: the random byte AND NN (R146). -/
def execRndVxNn (x : Nibble) (nn : Byte) (s : State) : Result := writeVx x (s.rnd &&& nn) s.drawRandom

end Sys2Proof.Machine
end

