-- ==== Sys2Proof/Machine/TimerKeypad.lean ====
section
/-! DEFINITION. Timer and keypad instructions (spec/44_timers_and_keypad.md): EX9E, EXA1, FX07, FX15, FX18, FX0A. -/

namespace Sys2Proof.Machine

/-- A skip on the state of the key VX names; VX > 15 is reported, with no skip (R191, R192, decision D12). -/
def skipOnKey (v : Byte) (pressed : Bool) (s : State) : Result :=
  match keyIndex v with
  | some k => .next (s.skipIf (s.getKey k == pressed))
  | none => raise (.keyIndexOutOfRange v) s

/-- EX9E: skip if the key is pressed (R191). -/
def execSkpVx (x : Nibble) (s : State) : Result := skipOnKey (s.getV x) true s

/-- EXA1: skip if the key is not pressed (R192). -/
def execSknpVx (x : Nibble) (s : State) : Result := skipOnKey (s.getV x) false s

/-- FX07 (R193). -/
def execLdVxDt (x : Nibble) (s : State) : Result := .next (s.setV x s.dt).advance

/-- FX0A: the machine starts to wait; PC stays, and the keypad latch is not looked at (R204). It is completed by
`setKey` (Machine/Interface.lean). -/
def execLdVxK (x : Nibble) (s : State) : Result := .next { s with mode := .waitingForKey x }

/-- FX15 (R194). -/
def execLdDtVx (x : Nibble) (s : State) : Result := .next { s with dt := s.getV x }.advance

/-- FX18 (R195). -/
def execLdStVx (x : Nibble) (s : State) : Result := .next { s with st := s.getV x }.advance

end Sys2Proof.Machine
end

