-- ==== Sys2Proof/Machine/Fetch.lean ====
section
/-! DEFINITION. The first four checks of the step cycle (spec/30_encoding.md R75): mode, range of PC, fetch, decode and
selection. Step.lean only runs what this file selects. -/

namespace Sys2Proof.Machine

/-- What a step has left to do after fetch and decode. -/
inductive Cycle where
  /-- Nothing: the machine waits, or the step has raised its report. -/
  | idle (s : State)
  /-- One instruction to execute. -/
  | execute (i : Instr) (s : State)

/-- A fetched opcode: the instruction it selects, or the UnknownOpcode report (R75 steps 4 and 5, R69). -/
def select (op : Word) (s : State) : Cycle :=
  match decode op with
  | .ok i => .execute i s
  | .error _ => .idle (s.takeReport (.unknownOpcode op))

/-- The checks on a state whose report is cleared, the first that applies decides: waiting (44_timers_and_keypad
R205), PcOutOfRange (60_exceptions R216), then the opcode at PC (R60). -/
def fetchFrom (s : State) : Cycle :=
  match s.mode with
  | .waitingForKey _ => .idle s
  | .running => if s.pcFetchable then select s.opcode s else .idle (s.takeReport (.pcOutOfRange s.pc))

/-- Fetch and decode, after `report <- None` (R75). -/
def fetchDecode (s : State) : Cycle := fetchFrom s.clearReport

/-- The machine brought to where it fetches next: Running mode, PC in the range it fetches from. -/
def State.readyToFetch (s : State) : State :=
  { s with mode := .running, pc := if s.pcFetchable then s.pc else BitVec.ofNat 16 Config.progBase }

/-- An opcode placed at PC, as it lies in memory (20_memory R44). -/
def State.placeOpcode (s : State) (op : Word) : State := s.storeBytes s.pc.toNat (bytesOfOpcode op)

end Sys2Proof.Machine
end

