-- ==== Sys2Proof/Machine/Step.lean ====
section
/-! DEFINITION. The step: exactly one fetch-decode-execute cycle, or one no-op while waiting for a key
(spec/30_encoding.md R75). -/

namespace Sys2Proof.Machine

/-- The transaction `step` of the Core sequencer, with `rnd` as `State.rnd` has it (R75). -/
def step (s : State) : Host.Outcome State Fault Refusal :=
  match fetchDecode s with
  | .idle t => .next t
  | .execute i t => exec i t

/-- The state with an opcode of spec/opcode_table.json's numbering placed where the next step fetches: at PC, and in
Running mode with PC in range if they were not so (log entry 30). -/
def State.withFetchWord (s : State) (nbits w : Nat) : State := s.readyToFetch.placeOpcode (tableOpcode nbits w)

end Sys2Proof.Machine
end

