-- ==== Sys2Proof/Machine/Interface.lean ====
section
/-! DEFINITION. The seven interface transactions beside `step` (spec/60_exceptions.md R224 to R232), each an atomic
function of the state. None touches the model's own `report`, which is the output of the latest step. -/

namespace Sys2Proof.Machine

/-- One timer's tick: down by one if nonzero (R224). -/
def tick (t : Byte) : Byte := if t = 0 then 0 else t - 1

/-- `tickTimers()`: each timer on its own (R224, decision D27). -/
def tickTimers (s : State) : State := { s with dt := tick s.dt, st := tick s.st }

/-- A qualifying key transition: a press edge (KEY_QUALIFY; R226, decision D17). -/
def qualifying (old pressed : Bool) : Bool := pressed && !old

/-- The completion of a waiting FX0A: VX <- the key index, Running, PC on by 2 (44_timers_and_keypad R204). -/
def State.resolveKey (s : State) (x k : Nibble) : State :=
  { (s.setV x (k.zeroExtend 8)).advance with mode := .running }

/-- `setKey(k, p)`: the latch slot, and in WaitingForKey mode the completion of FX0A on a qualifying transition (R225,
R226). -/
def setKey (k : Nibble) (p : Bool) (s : State) : State :=
  match s.mode with
  | .running => s.setKeySlot k p
  | .waitingForKey x =>
    if qualifying (s.getKey k) p then (s.setKeySlot k p).resolveKey x k else s.setKeySlot k p

/-- `load(bytes)`: the bytes from 0x200 on, those past 0xFFF dropped (R228). -/
def load (bytes : List Byte) (s : State) : State := s.storeBytes Config.progBase (bytes.take Config.progMax)

/-- `getPixel(x, y)`; the ports are 6 and 5 bits wide (R229). -/
def getPixel (x : BitVec 6) (y : BitVec 5) (s : State) : Bool := (s.fb[y.toNat]'y.isLt)[x.toNat]'x.isLt

/-- `consumeDrawEvent()`: the draw flag, and the state with it cleared (R230). -/
def consumeDrawEvent (s : State) : Bool × State := (s.draw, { s with draw := false })

/-- `getDelayTimer()` (R231). -/
def getDelayTimer (s : State) : Byte := s.dt

/-- `getSoundTimer()` (R232). -/
def getSoundTimer (s : State) : Byte := s.st

end Sys2Proof.Machine
end

