-- ==== Sys2Proof/Machine/Schedule.lean ====
section
/-! DEFINITION. The agents' transactions as data and a schedule of them (spec/00_scope.md R6): one total order of
atomic transactions, unconstrained (spec/70_reset_and_hazards.md R262). -/

namespace Sys2Proof.Machine

/-- A transaction of an agent (R6). `step` carries the byte the Scheduler presents as `rnd`; with `none` the byte is a
free value. -/
inductive Transaction where
  | step (rnd : Option Byte)
  | tickTimers
  | setKey (k : Nibble) (pressed : Bool)
  | load (bytes : List Byte)
  | getPixel (x : BitVec 6) (y : BitVec 5)
  | consumeDrawEvent
  | getDelayTimer
  | getSoundTimer
  deriving DecidableEq, Repr

/-- What a transaction answers its agent. -/
inductive Answer where
  | nothing
  | report (r : Option Report)
  | bit (b : Bool)
  | byte (b : Byte)
  deriving DecidableEq, Repr

/-- `step(rnd)`: one step with the byte presented to it, and to it alone (R75). -/
def stepWith (rnd : Option Byte) (s : State) : Result :=
  match step { s with rndIn := rnd } with
  | .next t => .next { t with rndIn := none }
  | .fault f => .fault f
  | .refused r => .refused r

/-- A transaction performed: the state after it and its answer. -/
def perform (t : Transaction) (s : State) : Host.Outcome (State × Answer) Fault Refusal :=
  match t with
  | .step rnd =>
    match stepWith rnd s with
    | .next u => .next (u, .report u.report)
    | .fault f => .fault f
    | .refused r => .refused r
  | .tickTimers => .next (Machine.tickTimers s, .nothing)
  | .setKey k p => .next (Machine.setKey k p s, .nothing)
  | .load bytes => .next (Machine.load bytes s, .nothing)
  | .getPixel x y => .next (s, .bit (Machine.getPixel x y s))
  | .consumeDrawEvent => .next ((Machine.consumeDrawEvent s).2, .bit (Machine.consumeDrawEvent s).1)
  | .getDelayTimer => .next (s, .byte (Machine.getDelayTimer s))
  | .getSoundTimer => .next (s, .byte (Machine.getSoundTimer s))

/-- A schedule performed: the final state and the answers in order. -/
def runSchedule : List Transaction → State → Host.Outcome (State × List Answer) Fault Refusal
  | [], s => .next (s, [])
  | t :: ts, s =>
    match perform t s with
    | .next (u, a) =>
      match runSchedule ts u with
      | .next (w, as) => .next (w, a :: as)
      | .fault f => .fault f
      | .refused r => .refused r
    | .fault f => .fault f
    | .refused r => .refused r

/-- The states some schedule reaches from construction. -/
inductive Reachable : State → Prop where
  | reset : Reachable State.reset
  | perform {s u : State} {t : Transaction} {a : Answer} :
      Reachable s → Machine.perform t s = .next (u, a) → Reachable u

end Sys2Proof.Machine
end

