-- ==== Sys2Proof/Safety.lean ====
section
/-! DEFINITION. What claims about runs are stated in: reports as failures (spec/60_exceptions.md R213, decision D25),
the ends of a run (spec/70_reset_and_hazards.md R263), and the invariant of spec/10_state.md R30. -/

namespace Sys2Proof.Machine

/-- A step that answers a next state with no report: the steps a claim counts as safe (R213, D25). -/
def silentStep (s : State) : Bool :=
  match step s with
  | .next t => t.report.isNone
  | .fault _ => false
  | .refused _ => false

/-- `n` steps in a row, none of which reports. -/
def silentRun : Nat → State → Bool
  | 0, _ => true
  | n + 1, s =>
    match step s with
    | .next t => t.report.isNone && silentRun n t
    | .fault _ => false
    | .refused _ => false

/-- `n` steps in a row. -/
def stepN : Nat → State → Result
  | 0, s => .next s
  | n + 1, s =>
    match step s with
    | .next t => stepN n t
    | .fault f => .fault f
    | .refused r => .refused r

/-- The instruction ends in a report there, whatever the state's earlier report. -/
def raises (i : Instr) (s : State) : Bool :=
  match exec i s.clearReport with
  | .next t => t.report.isSome
  | .fault _ => false
  | .refused _ => false

/-- Quiescent: Running, and a step leaves the state unchanged with report None (R263, decision D26). -/
def Quiescent (s : State) : Prop := s.mode = .running ∧ step s = .next s.clearReport

/-- Waiting for a key (R206). -/
def Waiting (s : State) : Prop := s.mode ≠ .running

/-- Stuck on PcOutOfRange: Running with PC past the last address a step fetches from (60_exceptions R216). -/
def Stuck (s : State) : Prop := s.mode = .running ∧ s.pcFetchable = false

/-- The invariant of R30: (a) is SP's type and (c)'s first bound is I's; (b), (d), (e) and the lasting part of (f) are
here, and the canonical form of memory. -/
structure Inv (s : State) : Prop where
  /-- Memory is in canonical form. -/
  mem_wf : Memory.wf s.mem = true
  /-- (d): mem[0x000..0x04F] = FONT. -/
  font : ∀ a, a < Config.fontEnd → s.readMem a = resetByte a
  /-- (b): PC <= 0x10FE. -/
  pc_le : s.pc.toNat ≤ 0x10FE
  /-- (e): every live stack entry is <= 4096. -/
  stack_le : ∀ k : Fin 16, k.val < s.sp.val → (s.stack[k]).toNat ≤ 4096
  /-- (f): a waiting machine's PC can be fetched from. -/
  waiting_pc : s.mode ≠ .running → s.pc.toNat ≤ Config.pcMaxFetch

end Sys2Proof.Machine
end

