-- ==== Sys2Proof/Certificates/Slice0/Obligations.lean ====
section
/-! DEFINITION. The statements for the provers, and the words they are written in. A statement marked "spec's decision"
rests on a row D<n> of spec/92_eei_decisions.md that the model follows (the log entry is named). -/

namespace Sys2Proof.Machine

/-! ### Frames -/

/-- `t` keeps everything of `s` but PC and the registers named. "Everything but a field f too" is written
`Kept regs { s with f := t.f } t`. Memory is compared byte by byte, as the machine reads it. -/
structure Kept (regs : List Nibble) (s t : State) : Prop where
  v : ∀ r, r ∉ regs → t.getV r = s.getV r
  i : t.i = s.i
  mem : ∀ a, t.readMem a = s.readMem a
  stack : t.stack = s.stack
  sp : t.sp = s.sp
  dt : t.dt = s.dt
  st : t.st = s.st
  fb : t.fb = s.fb
  key : t.key = s.key
  mode : t.mode = s.mode
  draw : t.draw = s.draw
  report : t.report = s.report
  rndIn : t.rndIn = s.rndIn
  rndCount : t.rndCount = s.rndCount

/-! ### Tables of the spec, transcribed -/

/-- The general registers an instruction reads (10_state R12). -/
def readsReg : Instr → Nibble → Bool
  | .seVxNn x _, r | .sneVxNn x _, r | .addVxNn x _, r => r == x
  | .seVxVy x y _, r | .sneVxVy x y _, r => r == x || r == y
  | .ldVxVy _ y, r | .shrVxVy _ y, r | .shlVxVy _ y, r => r == y
  | .orVxVy x y, r | .andVxVy x y, r | .xorVxVy x y, r => r == x || r == y
  | .addVxVy x y, r | .subVxVy x y, r | .subnVxVy x y, r => r == x || r == y
  | .jpV0Nnn _, r => r == 0
  | .drw x y _, r => r == x || r == y
  | .skpVx x, r | .sknpVx x, r => r == x
  | .ldDtVx x, r | .ldStVx x, r | .addIVx x, r | .ldFVx x, r | .ldBVx x, r => r == x
  | .ldMemVx x, r => decide (r.toNat ≤ x.toNat)
  | .ldVxNn _ _, _ | .rndVxNn _ _, _ | .ldVxDt _, _ | .ldVxK _, _ | .ldVxMem _, _ => false
  | .cls, _ | .ret, _ | .jp _, _ | .call _, _ | .ldINnn _, _ => false

/-- The general registers an instruction's own step writes (10_state R12; FX0A's VX is written by `setKey`). -/
def writesReg : Instr → Nibble → Bool
  | .ldVxNn x _, r | .addVxNn x _, r | .ldVxVy x _, r | .orVxVy x _, r | .andVxVy x _, r | .xorVxVy x _, r => r == x
  | .addVxVy x _, r | .subVxVy x _, r | .subnVxVy x _, r | .shrVxVy x _, r | .shlVxVy x _, r => r == x || r == 0xF
  | .rndVxNn x _, r | .ldVxDt x, r => r == x
  | .drw _ _ _, r => r == 0xF
  | .ldVxMem x, r => decide (r.toNat ≤ x.toNat)
  | .seVxNn _ _, _ | .sneVxNn _ _, _ | .seVxVy _ _ _, _ | .sneVxVy _ _ _, _ | .jpV0Nnn _, _ => false
  | .skpVx _, _ | .sknpVx _, _ | .ldDtVx _, _ | .ldStVx _, _ | .addIVx _, _ | .ldFVx _, _ | .ldBVx _, _ => false
  | .ldVxK _, _ | .ldMemVx _, _ | .cls, _ | .ret, _ | .jp _, _ | .call _, _ | .ldINnn _, _ => false

/-- PC after a skip: over one instruction, or to the next. -/
def pcAfterSkip (s : State) (c : Bool) : Word := if c then s.pc + 4 else s.pc + 2

/-- The new PC of an instruction (the table of 10_state R17); its last row, "every instruction not listed", is last. -/
def pcAfter (s : State) : Instr → Word
  | .seVxNn x nn => pcAfterSkip s (s.getV x == nn)
  | .sneVxNn x nn => pcAfterSkip s (s.getV x != nn)
  | .seVxVy x y _ => pcAfterSkip s (s.getV x == s.getV y)
  | .sneVxVy x y _ => pcAfterSkip s (s.getV x != s.getV y)
  | .skpVx x => pcAfterSkip s (decide (∃ k : Fin 16, k.val = (s.getV x).toNat ∧ s.key[k] = true))
  | .sknpVx x => pcAfterSkip s (decide (∃ k : Fin 16, k.val = (s.getV x).toNat ∧ s.key[k] = false))
  | .jp nnn => BitVec.ofNat 16 nnn.toNat
  | .call nnn => if s.sp.val < 16 then BitVec.ofNat 16 nnn.toNat else s.pc + 2
  | .ret => if h : 0 < s.sp.val then s.stack[s.sp.val - 1] else s.pc + 2
  | .jpV0Nnn nnn => BitVec.ofNat 16 (nnn.toNat + (s.getV 0).toNat)
  | .ldVxK _ => s.pc
  | _ => s.pc + 2

/-- The one report an instruction can raise, if any (60_exceptions R218). -/
def mayRaise : Instr → Report → Bool
  | .call _, .stackOverflow => true
  | .ret, .stackUnderflow => true
  | .drw _ _ _, .illegalMemAccess _ | .ldBVx _, .illegalMemAccess _ => true
  | .ldMemVx _, .illegalMemAccess _ | .ldVxMem _, .illegalMemAccess _ => true
  | .skpVx _, .keyIndexOutOfRange _ | .sknpVx _, .keyIndexOutOfRange _ => true
  | _, _ => false

/-- The sprite of a DXYN has a set bit over the screen position (`px`, `py`): bit 7 of the row's byte is the leftmost
(43_display R176, R177). -/
def spriteCovers (s : State) (x y n : Nibble) (px py : Nat) : Bool :=
  decide ((s.getV x).toNat % 64 ≤ px ∧ px < (s.getV x).toNat % 64 + 8 ∧
    (s.getV y).toNat % 32 ≤ py ∧ py < (s.getV y).toNat % 32 + n.toNat) &&
  (s.readMem (s.i.toNat + (py - (s.getV y).toNat % 32))).getLsbD (7 - (px - (s.getV x).toNat % 64))

/-- An address that a write may not touch (20_memory R49), and one that a read may not (R48). -/
def badWrite (a : Nat) : Prop := a < 0x50 ∨ 4095 < a
def badRead (a : Nat) : Prop := 4095 < a

/-- `a` is the lowest address of `base .. base + len - 1` that is bad. -/
def LowestBad (bad : Nat → Prop) (base len a : Nat) : Prop :=
  (base ≤ a ∧ a < base + len ∧ bad a) ∧ ∀ b, base ≤ b → b < base + len → bad b → a ≤ b

/-- None of the first `n` steps executes FX15 or FX18. -/
def NoTimerWrite (n : Nat) (s : State) : Prop :=
  ∀ k u x, k < n → stepN k s = .next u → decode u.opcode ≠ .ok (.ldDtVx x) ∧ decode u.opcode ≠ .ok (.ldStVx x)

end Sys2Proof.Machine

open Sys2Proof Sys2Proof.Machine

/-! ### The step, decoding and encoding -/

/-- In Running mode with PC in range, a step is the decoded instruction's effect on the state with its report cleared
(30_encoding R75; the check order is the spec's decision D32, log entry 27). -/
def Obligations.StepRunsDecodedInstruction : Prop :=
  ∀ (s : State) (i : Instr), s.mode = .running → s.pc.toNat ≤ 4094 → decode s.opcode = .ok i →
    step s = exec i s.clearReport

/-- The three ends of a step that execute nothing: waiting, PC out of range, unknown opcode (30_encoding R75; spec's
decisions D5, D6, D18, D32, log entries 7, 8, 18, 27). -/
def Obligations.StepThatExecutesNothing : Prop :=
  ∀ s : State,
    (∀ x, s.mode = .waitingForKey x → step s = .next { s with report := none }) ∧
    (s.mode = .running → 4094 < s.pc.toNat → step s = .next { s with report := some (.pcOutOfRange s.pc) }) ∧
    (s.mode = .running → s.pc.toNat ≤ 4094 → (∀ i, decode s.opcode ≠ .ok i) →
      step s = .next { s with report := some (.unknownOpcode s.opcode), pc := s.pc + 2 })

/-- The opcode is mem[PC] × 256 + mem[PC + 1] (30_encoding R60; spec's decision D1, log entry 1). -/
def Obligations.FetchReadsTwoBytesHighFirst : Prop :=
  ∀ s : State,
    s.opcode.toNat = (s.readMem s.pc.toNat).toNat * 256 + (s.readMem (s.pc.toNat + 1)).toNat

/-- The six fields of an opcode are the bits that 30_encoding R62 names. -/
def Obligations.OpcodeFieldsAreTheNamedBits : Prop :=
  ∀ (op : Word) (k : Nat),
    ((classOf op).getLsbD k = (decide (k < 4) && op.getLsbD (12 + k))) ∧
    ((xOf op).getLsbD k = (decide (k < 4) && op.getLsbD (8 + k))) ∧
    ((yOf op).getLsbD k = (decide (k < 4) && op.getLsbD (4 + k))) ∧
    ((nOf op).getLsbD k = (decide (k < 4) && op.getLsbD k)) ∧
    ((nnOf op).getLsbD k = (decide (k < 8) && op.getLsbD k)) ∧
    ((nnnOf op).getLsbD k = (decide (k < 12) && op.getLsbD k)) ∧
    nnOf op = yOf op ++ nOf op ∧ nnnOf op = xOf op ++ yOf op ++ nOf op

/-- Decoding an encoded instruction gives it back, with every operand at every value (30_encoding sections 3 and 4; that
a 5XYN or 9XYN with N other than 0 decodes to its skip is the spec's decision D9, log entry 11). -/
def Obligations.DecodeInvertsEncode : Prop := ∀ i : Instr, decode (encode i) = .ok i

/-- Encoding a decoded opcode gives it back: each opcode has one meaning and no bit of it is dropped (30_encoding sections
3 and 4). For 5XYN and 9XYN with N other than 0, which decode to their skip by the spec's decision D9, this holds because
an instruction carries N, though R68 gives N = 0 as the canonical encoding (DESIGN CHOICE, log entry 11). -/
def Obligations.EncodeInvertsDecode : Prop :=
  ∀ (op : Word) (i : Instr), decode op = .ok i → encode i = op

/-- Decoding selects the one matching row of the opcode map, and rejects by name exactly the opcodes that match none;
the 34 rows are disjoint (30_encoding R67, R69; the masks of classes 5 and 9 are the spec's decision D9, log entry 11). -/
def Obligations.DecodeSelectsTheMatchingRow : Prop :=
  (∀ op i, decode op = .ok i → i.row ∈ opcodeTable ∧ i.row.selects op = true) ∧
  (∀ op e, decode op = .error e → e = .unknownOpcode op ∧ ∀ r ∈ opcodeTable, r.selects op = false) ∧
  opcodeTable.length = 34 ∧
  opcodeTable.Pairwise fun r q => ∀ op, ¬ (r.selects op = true ∧ q.selects op = true)

/-- Words written out from 30_encoding R67 and the decode table of 95_test_vectors 2.1 decode as they should (that 0x5127
is a 5XY0 is the spec's decision D9, log entry 11). -/
def Obligations.WordsDecodeAsTheSpecSays : Prop :=
  decode 0x00EE = .ok .ret ∧ decode 0x1234 = .ok (.jp 0x234) ∧ decode 0x3A05 = .ok (.seVxNn 0xA 0x05) ∧
  decode 0x8AF0 = .ok (.ldVxVy 0xA 0xF) ∧ decode 0x812E = .ok (.shlVxVy 1 2) ∧ decode 0xD125 = .ok (.drw 1 2 5) ∧
  decode 0xE3A1 = .ok (.sknpVx 3) ∧ decode 0xF265 = .ok (.ldVxMem 2) ∧ decode 0x5127 = .ok (.seVxVy 1 2 7) ∧
  decode 0x0123 = .error (.unknownOpcode 0x0123) ∧ decode 0x8128 = .error (.unknownOpcode 0x8128) ∧
  decode 0xF075 = .error (.unknownOpcode 0xF075)

/-! ### Reset and invariants -/

/-- The values after construction, memory's over all its addresses 0 to 4095 (10_state R29, 70_reset_and_hazards R251;
PC, DRAW and the font bytes are the spec's decisions D2, D21, D23, log entries 4, 21, 2). -/
def Obligations.ResetHoldsTheStatedValues : Prop :=
  (∀ r, State.reset.getV r = 0) ∧ State.reset.i = 0 ∧ State.reset.pc = 0x200 ∧
  (∀ k : Fin 16, State.reset.stack[k] = 0) ∧ State.reset.sp = 0 ∧ State.reset.dt = 0 ∧ State.reset.st = 0 ∧
  (∀ x y, getPixel x y State.reset = false) ∧ (∀ k, State.reset.getKey k = false) ∧
  State.reset.mode = .running ∧ State.reset.draw = false ∧
  (∀ a, a < 0x50 → Config.font[a]? = some (State.reset.readMem a)) ∧ (∀ a, 0x50 ≤ a → a ≤ 4095 → State.reset.readMem a = 0)

/-- The reset state meets the invariant: clauses (b), (d), (e) and the lasting part of (f) of 10_state R30, and the
canonical form of the memory list, which is the model's own (DESIGN CHOICE, log entry 29). -/
def Obligations.ResetMeetsTheInvariant : Prop := Inv State.reset

/-- Every step keeps the invariant, from every state that meets it: the font intact, PC at most 0x10FE, live stack
entries at most 4096, a waiting PC fetchable (10_state R30 (d), (b), (e), (f); that no store reaches the font is the
spec's decision D11, log entry 13), and the memory list canonical, which is the model's own (DESIGN CHOICE, log entry
29). -/
def Obligations.StepKeepsTheInvariant : Prop := ∀ s t : State, Inv s → step s = .next t → Inv t

/-- Every transaction of every agent keeps the invariant, from every state that meets it (10_state R30; that no store
reaches the font, what `setKey` completes and what `load` writes are the spec's decisions D11, D18, D22, log entries 13,
18, 22; the canonical memory list is the model's own, DESIGN CHOICE, log entry 29). -/
def Obligations.TransactionsKeepTheInvariant : Prop :=
  ∀ (tr : Transaction) (s u : State) (a : Answer), Inv s → perform tr s = .next (u, a) → Inv u

/-- Every state that any schedule of transactions reaches from construction meets the invariant (10_state R30; spec's
decisions D11, D18, D22, log entries 13, 18, 22; the canonical memory list is the model's own, DESIGN CHOICE, log entry
29). -/
def Obligations.ReachableStatesMeetTheInvariant : Prop := ∀ s : State, Reachable s → Inv s

/-! ### Rules about the whole machine -/

/-- "No condition in the core is fatal": every step, and every instruction, answers a next state (60_exceptions R210). -/
def Obligations.NothingStopsTheMachine : Prop :=
  (∀ (i : Instr) (s : State), ∃ t, exec i s = .next t) ∧ ∀ s : State, ∃ t, step s = .next t

/-- An instruction writes no general register but those of its row (10_state R12; VF and I without other side effects
are the spec's decision D16, log entry 16). -/
def Obligations.InstructionsWriteOnlyTheirRegisters : Prop :=
  ∀ (i : Instr) (s t : State) (r : Nibble), exec i s = .next t → writesReg i r = false → t.getV r = s.getV r

/-- An instruction's effect does not depend on a register its row does not read: with another value `b` there,
everything else of the result is the same, and the register itself gets the same new value where the instruction writes
it, and else still holds `b` (10_state R12; an instruction that ends in a report writes no register, 60_exceptions
R212, where for FX65 and DXYN the report is the spec's decision D10, log entry 12). -/
def Obligations.ResultsIgnoreRegistersNotRead : Prop :=
  ∀ (i : Instr) (s t : State) (r : Nibble) (b : Byte), readsReg i r = false → exec i s = .next t →
    ∃ t', exec i (s.setV r b) = .next t' ∧ t'.setV r 0 = t.setV r 0 ∧
      t'.getV r = if writesReg i r = true ∧ raises i s = false then t.getV r else b

/-- PC after an instruction is what the table of 10_state R17 gives (spec's decisions D6, D7, D10 to D12, D30, log
entries 8, 9, 12, 13, 14, 26). -/
def Obligations.PcFollowsTheTable : Prop :=
  ∀ (i : Instr) (s t : State), exec i s = .next t → t.pc = pcAfter s i

/-- Only 00E0 and DXYN change the framebuffer or set DRAW; neither changes I, memory, the stack, the timers, the keypad
or MODE, and both end with PC + 2 (43_display R170). -/
def Obligations.OnlyDisplayInstructionsTouchTheScreen : Prop :=
  (∀ (i : Instr) (s t : State), exec i s = .next t → i ≠ .cls → (∀ x y n, i ≠ .drw x y n) →
    t.fb = s.fb ∧ t.draw = s.draw) ∧
  ∀ (i : Instr) (s t : State), exec i s = .next t → (i = .cls ∨ ∃ x y n, i = .drw x y n) →
    t.i = s.i ∧ (∀ a, t.readMem a = s.readMem a) ∧ t.stack = s.stack ∧ t.sp = s.sp ∧ t.dt = s.dt ∧ t.st = s.st ∧
    t.key = s.key ∧ t.mode = s.mode ∧ t.pc = s.pc + 2 ∧ (s.draw = true → t.draw = true)

/-- Only 2NNN writes a stack entry, only 2NNN and 00EE move SP (10_state R19, R20). -/
def Obligations.OnlyCallAndReturnTouchTheStack : Prop :=
  ∀ (i : Instr) (s t : State), exec i s = .next t → (∀ nnn, i ≠ .call nnn) →
    t.stack = s.stack ∧ (i ≠ .ret → t.sp = s.sp)

/-- No step decrements a timer; among the instructions only FX15 writes DT and only FX18 writes ST; any number of steps
with no such instruction leaves both alone (44_timers_and_keypad R196). -/
def Obligations.TimersMoveOnlyByTheirWrites : Prop :=
  (∀ (i : Instr) (s t : State), exec i s = .next t →
    ((∀ x, i ≠ .ldDtVx x) → t.dt = s.dt) ∧ ((∀ x, i ≠ .ldStVx x) → t.st = s.st)) ∧
  ∀ (n : Nat) (s t : State), NoTimerWrite n s → stepN n s = .next t → t.dt = s.dt ∧ t.st = s.st

/-- The keypad latch is written by `setKey` alone: no step and no other transaction changes it (10_state R24). -/
def Obligations.OnlySetKeyWritesTheKeypad : Prop :=
  (∀ s t : State, step s = .next t → t.key = s.key) ∧
  ∀ (tr : Transaction) (s u : State) (a : Answer), perform tr s = .next (u, a) → (∀ k p, tr ≠ .setKey k p) →
    u.key = s.key

/-- Running changes to WaitingForKey only by a step that executes FX0A, which changes nothing else; no other
transaction leaves or enters a mode, but `setKey` (10_state R25, 44_timers_and_keypad R206). -/
def Obligations.OnlyWaitForKeyStartsWaiting : Prop :=
  (∀ s t : State, s.mode = .running → step s = .next t →
    t.mode = .running ∨ ∃ x, decode s.opcode = .ok (.ldVxK x) ∧ t = { s with report := none, mode := .waitingForKey x }) ∧
  ∀ (tr : Transaction) (s u : State) (a : Answer), perform tr s = .next (u, a) → (∀ r, tr ≠ .step r) →
    (∀ k p, tr ≠ .setKey k p) → u.mode = s.mode

/-- Only ANNN, FX1E and FX29 write I (10_state R15; spec's decision D16, log entry 16). -/
def Obligations.OnlyIndexInstructionsWriteTheIndex : Prop :=
  ∀ (i : Instr) (s t : State), exec i s = .next t → (∀ nnn, i ≠ .ldINnn nnn) → (∀ x, i ≠ .addIVx x) →
    (∀ x, i ≠ .ldFVx x) → t.i = s.i

/-- Only FX33 and FX55 change memory, and no instruction changes a byte of the font or one outside memory (20_memory
R46, R49; spec's decisions D10, D11, log entries 12, 13). -/
def Obligations.OnlyStoresChangeMemory : Prop :=
  ∀ (i : Instr) (s t : State), exec i s = .next t →
    ((∀ x, i ≠ .ldBVx x) → (∀ x, i ≠ .ldMemVx x) → ∀ a, t.readMem a = s.readMem a) ∧
    ∀ a, a < 0x50 ∨ 4095 < a → t.readMem a = s.readMem a

/-- A step that reports has its recovery action as its whole effect: PC + 2, or nothing for PcOutOfRange (60_exceptions
R212, R220; spec's decisions D5 to D7, D10 to D12, log entries 7 to 9, 12 to 14). -/
def Obligations.ReportingStepOnlyRecovers : Prop :=
  ∀ (s t : State) (r : Report), step s = .next t → t.report = some r →
    (r = .pcOutOfRange s.pc ∧ 4094 < s.pc.toNat ∧ t = { s with report := some r }) ∨
    ((∀ p, r ≠ .pcOutOfRange p) ∧ t = { s with report := some r, pc := s.pc + 2 })

/-- An instruction raises no report but the one kind it can raise (60_exceptions R218). -/
def Obligations.InstructionsRaiseOnlyTheirReport : Prop :=
  ∀ (i : Instr) (s t : State) (r : Report), s.report = none → exec i s = .next t → t.report = some r →
    mayRaise i r = true

/-- A report leaves no trace: what a step does does not depend on an earlier step's report (60_exceptions R213). The
report is a field of the model's own (DESIGN CHOICE, log entry 23). -/
def Obligations.ReportsLeaveNoTrace : Prop :=
  ∀ (s : State) (r : Option Report), step { s with report := r } = step s

/-- With PC out of range every later step reports the same and changes nothing, and no transaction of any agent moves
PC or leaves Running (60_exceptions R216; spec's decisions D4, D5, log entries 6, 7). -/
def Obligations.OutOfRangePcIsStuckForEver : Prop :=
  ∀ s : State, s.mode = .running → 4094 < s.pc.toNat →
    (∀ n, stepN (n + 1) s = .next { s with report := some (.pcOutOfRange s.pc) }) ∧
    ∀ (tr : Transaction) (u : State) (a : Answer), perform tr s = .next (u, a) → u.pc = s.pc ∧ u.mode = .running

/-- A Running machine's step leaves the state unchanged and silent exactly at a jump to itself, by 1NNN or by BNNN
(70_reset_and_hazards R263; the definition is the spec's decision D26, log entry 32; that PC may be odd or low is D4,
log entry 6). -/
def Obligations.QuiescentExactlyAtASelfJump : Prop :=
  ∀ s : State, Quiescent s ↔
    (s.mode = .running ∧ s.pc.toNat ≤ 4094 ∧
      ((∃ nnn, decode s.opcode = .ok (.jp nnn) ∧ nnn.toNat = s.pc.toNat) ∨
       (∃ nnn, decode s.opcode = .ok (.jpV0Nnn nnn) ∧ nnn.toNat + (s.getV 0).toNat = s.pc.toNat)))

/-! ### Control flow -/

/-- 00EE pops the stack into PC; on an empty stack it reports, and only PC moves (40_control_flow R101; what an entry
holds and PC on underflow are the spec's decisions D8, D7, log entries 10, 9). -/
def Obligations.ReturnPopsTheStack : Prop :=
  (∀ s : State, ∀ h : 0 < s.sp.val, ∃ t, exec .ret s = .next t ∧ t.pc = s.stack[s.sp.val - 1] ∧
    t.sp.val = s.sp.val - 1 ∧ Kept [] { s with sp := t.sp } t) ∧
  ∀ s : State, s.sp.val = 0 → exec .ret s = .next { s with report := some .stackUnderflow, pc := s.pc + 2 }

/-- 1NNN sets PC to NNN and changes nothing else; a jump to itself changes nothing (40_control_flow R102). -/
def Obligations.JumpSetsPc : Prop :=
  ∀ (nnn : Addr12) (s : State), ∃ t, exec (.jp nnn) s = .next t ∧ t.pc.toNat = nnn.toNat ∧ Kept [] s t ∧
    (nnn.toNat = s.pc.toNat → t = s)

/-- BNNN sets PC to NNN + V0, not reduced, and changes nothing else (40_control_flow R108; spec's decision D30, log
entry 26). -/
def Obligations.JumpWithOffsetAddsV0 : Prop :=
  ∀ (nnn : Addr12) (s : State), ∃ t, exec (.jpV0Nnn nnn) s = .next t ∧
    t.pc.toNat = nnn.toNat + (s.getV 0).toNat ∧ Kept [] s t

/-- 2NNN pushes PC + 2 and jumps; on a full stack it reports and only PC moves on (40_control_flow R103; spec's
decision D8, log entry 10). -/
def Obligations.CallPushesTheReturnAddress : Prop :=
  (∀ (nnn : Addr12) (s : State) (h : s.sp.val < 16), ∃ t, exec (.call nnn) s = .next t ∧
    t.pc.toNat = nnn.toNat ∧ t.sp.val = s.sp.val + 1 ∧ t.stack[s.sp.val] = s.pc + 2 ∧
    (∀ k : Fin 16, k.val ≠ s.sp.val → t.stack[k] = s.stack[k]) ∧
    Kept [] { s with stack := t.stack, sp := t.sp } t) ∧
  ∀ (nnn : Addr12) (s : State), s.sp.val = 16 →
    exec (.call nnn) s = .next { s with report := some .stackOverflow, pc := s.pc + 2 }

/-- 2NNN followed by 00EE comes back to call site + 2 with SP and everything else as before, every stack entry but the
dead one included (95_test_vectors S8; spec's decision D8, log entry 10). -/
def Obligations.CallThenReturnComesBack : Prop :=
  ∀ (nnn : Addr12) (s : State), s.sp.val < 16 → ∃ t u, exec (.call nnn) s = .next t ∧ t.pc.toNat = nnn.toNat ∧
    exec .ret t = .next u ∧ u.pc = s.pc + 2 ∧ (∀ k : Fin 16, k.val ≠ s.sp.val → u.stack[k] = s.stack[k]) ∧
    Kept [] { s with stack := u.stack } u

/-- 3XNN skips iff VX = NN, 4XNN iff VX ≠ NN; nothing but PC changes (40_control_flow R104, R105). -/
def Obligations.ImmediateSkipsCompareVx : Prop :=
  ∀ (x : Nibble) (nn : Byte) (s : State),
    (∃ t, exec (.seVxNn x nn) s = .next t ∧ Kept [] s t ∧
      (s.getV x = nn → t.pc = s.pc + 4) ∧ (s.getV x ≠ nn → t.pc = s.pc + 2)) ∧
    ∃ t, exec (.sneVxNn x nn) s = .next t ∧ Kept [] s t ∧
      (s.getV x ≠ nn → t.pc = s.pc + 4) ∧ (s.getV x = nn → t.pc = s.pc + 2)

/-- 5XYN skips iff VX = VY, 9XYN iff VX ≠ VY, whatever N is; nothing but PC changes (40_control_flow R106, R107; N
ignored is the spec's decision D9, log entry 11). -/
def Obligations.RegisterSkipsCompareVxVy : Prop :=
  ∀ (x y n : Nibble) (s : State),
    (∃ t, exec (.seVxVy x y n) s = .next t ∧ Kept [] s t ∧
      (s.getV x = s.getV y → t.pc = s.pc + 4) ∧ (s.getV x ≠ s.getV y → t.pc = s.pc + 2)) ∧
    ∃ t, exec (.sneVxVy x y n) s = .next t ∧ Kept [] s t ∧
      (s.getV x ≠ s.getV y → t.pc = s.pc + 4) ∧ (s.getV x = s.getV y → t.pc = s.pc + 2)

/-! ### Loads, arithmetic, logic, shifts, random -/

/-- 6XNN loads NN, 8XY0 copies VY; only VX and PC change (41_load_and_alu R121, R123). -/
def Obligations.LoadsAndMovesWriteVx : Prop :=
  (∀ (x : Nibble) (nn : Byte) (s : State), ∃ t, exec (.ldVxNn x nn) s = .next t ∧ t.getV x = nn ∧
    t.pc = s.pc + 2 ∧ Kept [x] s t) ∧
  ∀ (x y : Nibble) (s : State), ∃ t, exec (.ldVxVy x y) s = .next t ∧ t.getV x = s.getV y ∧
    t.pc = s.pc + 2 ∧ Kept [x] s t

/-- 7XNN adds modulo 256 and leaves VF (unless X = F) and everything else (41_load_and_alu R122). -/
def Obligations.AddImmediateWrapsWithoutAFlag : Prop :=
  ∀ (x : Nibble) (nn : Byte) (s : State), ∃ t, exec (.addVxNn x nn) s = .next t ∧
    (t.getV x).toNat = ((s.getV x).toNat + nn.toNat) % 256 ∧ t.pc = s.pc + 2 ∧ Kept [x] s t

/-- 8XY1, 8XY2, 8XY3 work bit by bit and leave VF (unless X = F) and everything else (41_load_and_alu R124 to R126;
VF untouched is the spec's decision D16, log entry 16). -/
def Obligations.LogicWorksBitByBitWithoutAFlag : Prop :=
  ∀ (x y : Nibble) (s : State),
    (∃ t, exec (.orVxVy x y) s = .next t ∧ t.pc = s.pc + 2 ∧ Kept [x] s t ∧
      ∀ k, (t.getV x).getLsbD k = ((s.getV x).getLsbD k || (s.getV y).getLsbD k)) ∧
    (∃ t, exec (.andVxVy x y) s = .next t ∧ t.pc = s.pc + 2 ∧ Kept [x] s t ∧
      ∀ k, (t.getV x).getLsbD k = ((s.getV x).getLsbD k && (s.getV y).getLsbD k)) ∧
    ∃ t, exec (.xorVxVy x y) s = .next t ∧ t.pc = s.pc + 2 ∧ Kept [x] s t ∧
      ∀ k, (t.getV x).getLsbD k = ((s.getV x).getLsbD k ^^ (s.getV y).getLsbD k)

/-- 8XY4: the sum modulo 256 in VX, the carry in VF, which holds the flag when X = F (41_load_and_alu R127; the order
of the two writes is the spec's decision D13, log entry 15). -/
def Obligations.AddSetsTheCarry : Prop :=
  ∀ (x y : Nibble) (s : State), ∃ t, exec (.addVxVy x y) s = .next t ∧
    (x ≠ 0xF → (t.getV x).toNat = ((s.getV x).toNat + (s.getV y).toNat) % 256) ∧
    t.getV 0xF = (if 255 < (s.getV x).toNat + (s.getV y).toNat then 1 else 0) ∧
    t.pc = s.pc + 2 ∧ Kept [x, 0xF] s t

/-- 8XY5 and 8XY7: the difference modulo 256 in VX, "no borrow" in VF, which holds the flag when X = F (41_load_and_alu
R128, R130; spec's decision D13, log entry 15). -/
def Obligations.SubtractSetsNoBorrow : Prop :=
  ∀ (x y : Nibble) (s : State),
    (∃ t, exec (.subVxVy x y) s = .next t ∧
      (x ≠ 0xF → ((t.getV x).toNat : Int) = ((s.getV x).toNat - (s.getV y).toNat : Int) % 256) ∧
      t.getV 0xF = (if (s.getV y).toNat ≤ (s.getV x).toNat then 1 else 0) ∧
      t.pc = s.pc + 2 ∧ Kept [x, 0xF] s t) ∧
    ∃ t, exec (.subnVxVy x y) s = .next t ∧
      (x ≠ 0xF → ((t.getV x).toNat : Int) = ((s.getV y).toNat - (s.getV x).toNat : Int) % 256) ∧
      t.getV 0xF = (if (s.getV x).toNat ≤ (s.getV y).toNat then 1 else 0) ∧
      t.pc = s.pc + 2 ∧ Kept [x, 0xF] s t

/-- 8XY6 and 8XYE shift VY by one into VX, with the bit shifted out in VF, which holds the flag when X = F
(41_load_and_alu R129, R131; spec's decision D13, log entry 15). -/
def Obligations.ShiftsMoveVyAndKeepTheBitOut : Prop :=
  ∀ (x y : Nibble) (s : State),
    (∃ t, exec (.shrVxVy x y) s = .next t ∧
      (x ≠ 0xF → (t.getV x).toNat = (s.getV y).toNat / 2) ∧ (t.getV 0xF).toNat = (s.getV y).toNat % 2 ∧
      t.pc = s.pc + 2 ∧ Kept [x, 0xF] s t) ∧
    ∃ t, exec (.shlVxVy x y) s = .next t ∧
      (x ≠ 0xF → (t.getV x).toNat = 2 * (s.getV y).toNat % 256) ∧ (t.getV 0xF).toNat = (s.getV y).toNat / 128 ∧
      t.pc = s.pc + 2 ∧ Kept [x, 0xF] s t

/-- CXNN writes the step's random byte AND NN: the byte the Scheduler presents if it names one, else a free value, a
fresh one for each draw (41_load_and_alu R146; spec's decision D20; the fields that carry it are the model's own, log
entry 20). -/
def Obligations.RandomByteIsMasked : Prop :=
  ∀ (x : Nibble) (nn : Byte) (s : State), ∃ t, exec (.rndVxNn x nn) s = .next t ∧
    (∀ rnd, s.rndIn = some rnd → t.getV x = rnd &&& nn) ∧
    (s.rndIn = none → t.getV x = Config.randomByte s.rndCount &&& nn) ∧
    (∀ k, nn.getLsbD k = false → (t.getV x).getLsbD k = false) ∧
    t.rndCount = s.rndCount + 1 ∧ t.pc = s.pc + 2 ∧ Kept [x] { s with rndCount := t.rndCount } t

/-! ### Index and memory -/

/-- ANNN: I = NNN. FX1E: I + VX modulo 65536. FX29: I = VX × 5 for every value of VX. Only I and PC change
(42_index_and_memory R151 to R153; spec's decisions D3, D28, log entries 5, 24; that FX1E leaves VF alone is D16, log
entry 16). -/
def Obligations.IndexInstructionsSetTheIndex : Prop :=
  (∀ (nnn : Addr12) (s : State), ∃ t, exec (.ldINnn nnn) s = .next t ∧ t.i.toNat = nnn.toNat ∧
    t.pc = s.pc + 2 ∧ Kept [] { s with i := t.i } t) ∧
  ∀ (x : Nibble) (s : State),
    (∃ t, exec (.addIVx x) s = .next t ∧ t.i.toNat = (s.i.toNat + (s.getV x).toNat) % 65536 ∧
      t.pc = s.pc + 2 ∧ Kept [] { s with i := t.i } t) ∧
    ∃ t, exec (.ldFVx x) s = .next t ∧ t.i.toNat = (s.getV x).toNat * 5 ∧
      t.pc = s.pc + 2 ∧ Kept [] { s with i := t.i } t

/-- FX33 with a legal range stores the three decimal digits of VX at I, I + 1, I + 2, every other byte and everything
else but PC unchanged (42_index_and_memory R154; the legal range is the spec's decisions D10, D11, log entries 12,
13; that I is left alone is D16, log entry 16). -/
def Obligations.BcdStoresThreeDigits : Prop :=
  ∀ (x : Nibble) (s : State), Memory.wf s.mem = true → 0x50 ≤ s.effAddr 0 → s.effAddr 2 ≤ 4095 →
    ∃ t, exec (.ldBVx x) s = .next t ∧
      (t.readMem (s.effAddr 0)).toNat = (s.getV x).toNat / 100 ∧
      (t.readMem (s.effAddr 1)).toNat = (s.getV x).toNat / 10 % 10 ∧
      (t.readMem (s.effAddr 2)).toNat = (s.getV x).toNat % 10 ∧
      (∀ a, a < s.effAddr 0 ∨ s.effAddr 2 < a → t.readMem a = s.readMem a) ∧
      t.pc = s.pc + 2 ∧ Kept [] { s with mem := t.mem } t

/-- FX55 with a legal range stores V0..VX at I onward, every other byte and everything else but PC unchanged
(42_index_and_memory R155; spec's decisions D10, D11, D16, log entries 12, 13, 16). -/
def Obligations.RegisterDumpStoresV0ToVx : Prop :=
  ∀ (x : Nibble) (s : State), Memory.wf s.mem = true → 0x50 ≤ s.effAddr 0 → s.effAddr x.toNat ≤ 4095 →
    ∃ t, exec (.ldMemVx x) s = .next t ∧
      (∀ r : Nibble, r.toNat ≤ x.toNat → t.readMem (s.effAddr r.toNat) = s.getV r) ∧
      (∀ a, a < s.effAddr 0 ∨ s.effAddr x.toNat < a → t.readMem a = s.readMem a) ∧
      t.pc = s.pc + 2 ∧ Kept [] { s with mem := t.mem } t

/-- FX65 with a legal range loads V0..VX from I onward; every other register, memory, I and everything else but PC is
unchanged (42_index_and_memory R156; spec's decisions D10, D16, log entries 12, 16). -/
def Obligations.RegisterLoadReadsV0ToVx : Prop :=
  ∀ (x : Nibble) (s : State), s.effAddr x.toNat ≤ 4095 →
    ∃ t, exec (.ldVxMem x) s = .next t ∧
      (∀ r : Nibble, r.toNat ≤ x.toNat → t.getV r = s.readMem (s.effAddr r.toNat)) ∧
      (∀ r : Nibble, x.toNat < r.toNat → t.getV r = s.getV r) ∧
      t.pc = s.pc + 2 ∧ Kept [] { s with v := t.v } t

/-- FX33, FX55, FX65 and DXYN with an illegal address in their range report the lowest one and do nothing else but move
PC on (20_memory R48, R49; spec's decisions D10, D11, D14, log entries 12, 13, 15). -/
def Obligations.IllegalAccessReportsTheLowestAddress : Prop :=
  ∀ (s : State) (a : Nat) (x y n : Nibble),
    (LowestBad badWrite s.i.toNat 3 a →
      exec (.ldBVx x) s = .next { s with report := some (.illegalMemAccess a), pc := s.pc + 2 }) ∧
    (LowestBad badWrite s.i.toNat (x.toNat + 1) a →
      exec (.ldMemVx x) s = .next { s with report := some (.illegalMemAccess a), pc := s.pc + 2 }) ∧
    (LowestBad badRead s.i.toNat (x.toNat + 1) a →
      exec (.ldVxMem x) s = .next { s with report := some (.illegalMemAccess a), pc := s.pc + 2 }) ∧
    (LowestBad badRead s.i.toNat n.toNat a →
      exec (.drw x y n) s = .next { s with report := some (.illegalMemAccess a), pc := s.pc + 2 })

/-- A register dump is seen by every later fetch: an opcode that lies in the stored bytes is made of the registers
stored there (20_memory R54; big endian is the spec's decision D1, log entry 1). -/
def Obligations.StoredBytesAreFetched : Prop :=
  ∀ (x : Nibble) (s t : State) (r q : Nibble), Memory.wf s.mem = true → 0x50 ≤ s.effAddr 0 →
    s.effAddr x.toNat ≤ 4095 → r.toNat + 1 = q.toNat → q.toNat ≤ x.toNat → exec (.ldMemVx x) s = .next t →
    (t.opcodeAt (s.effAddr r.toNat)).toNat = (s.getV r).toNat * 256 + (s.getV q).toNat

/-! ### Display -/

/-- 00E0 clears every pixel and marks a draw event; VF and everything else but PC are unchanged (43_display R171). -/
def Obligations.ClearScreenClearsEveryPixel : Prop :=
  ∀ s : State, ∃ t, exec .cls s = .next t ∧ (∀ px py, getPixel px py t = false) ∧ t.draw = true ∧
    t.pc = s.pc + 2 ∧ Kept [] { s with fb := t.fb, draw := t.draw } t

/-- DXYN with a legal range XORs the clipped sprite into the framebuffer, VF is 1 iff a set bit met a set pixel and
else 0, a draw event is marked; everything else but PC is unchanged (43_display R176, R177, R178 (c); spec's decisions
D14, D15, log entries 15, 3). -/
def Obligations.DrawXorsTheClippedSprite : Prop :=
  ∀ (x y n : Nibble) (s : State), n.toNat = 0 ∨ s.effAddr n.toNat ≤ 4096 →
    ∃ t, exec (.drw x y n) s = .next t ∧
      (∀ px py, getPixel px py t = (getPixel px py s ^^ spriteCovers s x y n px.toNat py.toNat)) ∧
      ((∃ px py, getPixel px py s = true ∧ spriteCovers s x y n px.toNat py.toNat = true) → t.getV 0xF = 1) ∧
      ((∀ px py, getPixel px py s = true → spriteCovers s x y n px.toNat py.toNat = false) → t.getV 0xF = 0) ∧
      t.draw = true ∧ t.pc = s.pc + 2 ∧ Kept [0xF] { s with fb := t.fb, draw := t.draw } t

/-- A second draw by the same instruction XORs the sprite where its VX and VY now put it, with VF 1 iff that meets a
set pixel. Where neither X nor Y is F that is the same place: the framebuffer is restored, and the second VF is 1 iff
the sprite has a set bit over a pixel that was clear before the first (43_display R178 (a), which says so for a sprite
drawn on clear pixels; log entry 34). With X or Y = F the first draw's VF is the second's coordinate (spec's decision
D14, log entry 15; the leftmost bit is D15, log entry 3). -/
def Obligations.DrawingTwiceErases : Prop :=
  ∀ (x y n : Nibble) (s : State), n.toNat = 0 ∨ s.effAddr n.toNat ≤ 4096 →
    ∃ t u, exec (.drw x y n) s = .next t ∧ exec (.drw x y n) t = .next u ∧
      (∀ px py, getPixel px py u =
        ((getPixel px py s ^^ spriteCovers s x y n px.toNat py.toNat) ^^ spriteCovers t x y n px.toNat py.toNat)) ∧
      (u.getV 0xF = 1 ↔ ∃ (px : BitVec 6) (py : BitVec 5),
        (getPixel px py s ^^ spriteCovers s x y n px.toNat py.toNat) = true ∧
          spriteCovers t x y n px.toNat py.toNat = true) ∧
      (u.getV 0xF = 1 ∨ u.getV 0xF = 0) ∧
      (x ≠ 0xF → y ≠ 0xF → u.fb = s.fb ∧
        (u.getV 0xF = 1 ↔ ∃ (px : BitVec 6) (py : BitVec 5),
          getPixel px py s = false ∧ spriteCovers s x y n px.toNat py.toNat = true))

/-! ### Timers and keypad -/

/-- EX9E skips iff the key VX names is pressed, EXA1 iff it is not; with VX > 15 both report and do not skip
(44_timers_and_keypad R191, R192; the report is the spec's decision D12, log entry 14). -/
def Obligations.KeySkipsReadTheLatch : Prop :=
  (∀ (x k : Nibble) (s : State), (s.getV x).toNat = k.toNat →
    (∃ t, exec (.skpVx x) s = .next t ∧ Kept [] s t ∧
      (s.getKey k = true → t.pc = s.pc + 4) ∧ (s.getKey k = false → t.pc = s.pc + 2)) ∧
    ∃ t, exec (.sknpVx x) s = .next t ∧ Kept [] s t ∧
      (s.getKey k = false → t.pc = s.pc + 4) ∧ (s.getKey k = true → t.pc = s.pc + 2)) ∧
  ∀ (x : Nibble) (s : State), 15 < (s.getV x).toNat →
    exec (.skpVx x) s = .next { s with report := some (.keyIndexOutOfRange (s.getV x)), pc := s.pc + 2 } ∧
    exec (.sknpVx x) s = .next { s with report := some (.keyIndexOutOfRange (s.getV x)), pc := s.pc + 2 }

/-- FX07 copies DT to VX, FX15 copies VX to DT (the next tick takes it to VX − 1 if nonzero), FX18 copies VX to ST;
nothing else but PC changes; and no instruction reads ST: with another value there the result is the same, but for ST
itself where the instruction does not write it (44_timers_and_keypad R193, R194, R195). -/
def Obligations.TimerInstructionsCopy : Prop :=
  (∀ (x : Nibble) (s : State),
    (∃ t, exec (.ldVxDt x) s = .next t ∧ t.getV x = s.dt ∧ t.pc = s.pc + 2 ∧ Kept [x] s t) ∧
    (∃ t, exec (.ldDtVx x) s = .next t ∧ t.dt = s.getV x ∧ t.pc = s.pc + 2 ∧ Kept [] { s with dt := t.dt } t ∧
      (tickTimers t).dt.toNat = (s.getV x).toNat - 1) ∧
    ∃ t, exec (.ldStVx x) s = .next t ∧ t.st = s.getV x ∧ t.pc = s.pc + 2 ∧ Kept [] { s with st := t.st } t) ∧
  ∀ (i : Instr) (s t : State) (b : Byte), exec i s = .next t →
    ((∀ x, i ≠ .ldStVx x) → exec i { s with st := b } = .next { t with st := b }) ∧
    ((∃ x, i = .ldStVx x) → exec i { s with st := b } = .next t)

/-- FX0A starts to wait for a key into VX and changes nothing else, PC included, whatever keys are held
(44_timers_and_keypad R204; spec's decision D17, log entry 17). -/
def Obligations.WaitForKeyStartsWaiting : Prop :=
  ∀ (x : Nibble) (s : State), ∃ t, exec (.ldVxK x) s = .next t ∧ t.mode = .waitingForKey x ∧ t.pc = s.pc ∧
    Kept [] { s with mode := t.mode } t

/-- A waiting machine does nothing by any number of steps; a key's press edge sets VX to the key's index, PC on by 2
and Running, and nothing else but the latch slot (44_timers_and_keypad R204 to R206, 95_test_vectors S10; spec's
decisions D17, D18, log entries 17, 18). -/
def Obligations.WaitingLastsUntilAPress : Prop :=
  ∀ (s : State) (x : Nibble), s.mode = .waitingForKey x →
    (∀ n, stepN (n + 1) s = .next { s with report := none }) ∧
    ∀ k, s.getKey k = false →
      ((setKey k true s).getV x).toNat = k.toNat ∧ (setKey k true s).mode = .running ∧
      (setKey k true s).pc = s.pc + 2 ∧ (setKey k true s).getKey k = true ∧
      (∀ q, q ≠ k → (setKey k true s).getKey q = s.getKey q) ∧
      Kept [x] { s with key := (setKey k true s).key, mode := .running } (setKey k true s)

/-! ### The other agents' transactions -/

/-- `tickTimers()` takes one from each nonzero timer and changes nothing else (60_exceptions R224; spec's decision D27,
log entry 22). -/
def Obligations.TickDecrementsEachNonzeroTimer : Prop :=
  ∀ s : State, ∃ t, perform .tickTimers s = .next (t, .nothing) ∧
    t.dt.toNat = s.dt.toNat - 1 ∧ t.st.toNat = s.st.toNat - 1 ∧ t.pc = s.pc ∧
    Kept [] { s with dt := t.dt, st := t.st } t

/-- `setKey(k, p)` that completes no FX0A (Running; a release; a key already held) writes the latch slot and nothing
else (60_exceptions R225, R226; the qualifying transition is the spec's decision D17, log entry 17). -/
def Obligations.SetKeyWritesOneSlot : Prop :=
  ∀ (k : Nibble) (p : Bool) (s : State), s.mode = .running ∨ p = false ∨ s.getKey k = true →
    ∃ t, perform (.setKey k p) s = .next (t, .nothing) ∧ t.getKey k = p ∧
      (∀ q, q ≠ k → t.getKey q = s.getKey q) ∧ t.pc = s.pc ∧ Kept [] { s with key := t.key } t

/-- `load(bytes)` copies the bytes to 0x200 onward, drops those past 0xFFF, and changes nothing else (60_exceptions
R228; spec's decision D22, log entry 22). -/
def Obligations.LoadCopiesTheProgram : Prop :=
  ∀ (bytes : List Byte) (s : State), Memory.wf s.mem = true →
    ∃ t, perform (.load bytes) s = .next (t, .nothing) ∧
      (∀ k, (h : k < bytes.length) → k < 3584 → t.readMem (0x200 + k) = bytes[k]) ∧
      (∀ a, a < 0x200 ∨ 0x200 + bytes.length ≤ a ∨ 4095 < a → t.readMem a = s.readMem a) ∧
      t.pc = s.pc ∧ Kept [] { s with mem := t.mem } t

/-- `getPixel`, `getDelayTimer`, `getSoundTimer` answer what they name and change nothing; `consumeDrawEvent` answers
DRAW and clears it, and changes nothing else (60_exceptions R229 to R232; spec's decisions D19, D21, log entries 19,
21). -/
def Obligations.ReadTransactionsAnswer : Prop :=
  ∀ s : State,
    (∀ (x : Fin 64) (y : Fin 32), perform (.getPixel (BitVec.ofFin x) (BitVec.ofFin y)) s =
      .next (s, .bit (s.fb[y])[x])) ∧
    perform .getDelayTimer s = .next (s, .byte s.dt) ∧ perform .getSoundTimer s = .next (s, .byte s.st) ∧
    perform .consumeDrawEvent s = .next ({ s with draw := false }, .bit s.draw)
end

