-- ==== Sys2Proof/Laws/Decode.lean ====
section
/-! SUPPORT. The fields of an opcode as arithmetic, the fields of an encoded instruction, and what a mask of the opcode
map keeps. -/

namespace Sys2Proof

/-! ### Fields and formats as numbers -/

theorem toNat_append_mul {m n : Nat} (a : BitVec m) (b : BitVec n) :
    (a ++ b).toNat = a.toNat * 2 ^ n + b.toNat := by
  rw [BitVec.toNat_append, ← Nat.shiftLeft_add_eq_or_of_lt b.isLt, Nat.shiftLeft_eq]

theorem encodeNNN_toNat (c : Nibble) (nnn : Addr12) : (encodeNNN c nnn).toNat = c.toNat * 4096 + nnn.toNat :=
  toNat_append_mul c nnn

theorem encodeXNN_toNat (c x : Nibble) (nn : Byte) :
    (encodeXNN c x nn).toNat = c.toNat * 4096 + x.toNat * 256 + nn.toNat := by
  have h := toNat_append_mul (c ++ x) nn
  rw [toNat_append_mul c x] at h
  refine Eq.trans (show (encodeXNN c x nn).toNat = _ from h) ?_
  omega

theorem encodeNibbles_toNat (c x y n : Nibble) :
    (encodeNibbles c x y n).toNat = c.toNat * 4096 + x.toNat * 256 + y.toNat * 16 + n.toNat := by
  have h := toNat_append_mul (c ++ x ++ y) n
  rw [toNat_append_mul (c ++ x) y, toNat_append_mul c x] at h
  refine Eq.trans (show (encodeNibbles c x y n).toNat = _ from h) ?_
  omega

theorem classOf_toNat (op : Word) : (classOf op).toNat = op.toNat / 4096 := by
  have := op.isLt
  simp only [classOf, BitVec.extractLsb'_toNat, Nat.shiftRight_eq_div_pow]; omega

theorem xOf_toNat (op : Word) : (xOf op).toNat = op.toNat / 256 % 16 := by
  simp only [xOf, BitVec.extractLsb'_toNat, Nat.shiftRight_eq_div_pow]

theorem yOf_toNat (op : Word) : (yOf op).toNat = op.toNat / 16 % 16 := by
  simp only [yOf, BitVec.extractLsb'_toNat, Nat.shiftRight_eq_div_pow]

theorem nOf_toNat (op : Word) : (nOf op).toNat = op.toNat % 16 := by simp [nOf, BitVec.extractLsb'_toNat]

theorem nnOf_toNat (op : Word) : (nnOf op).toNat = op.toNat % 256 := by simp [nnOf, BitVec.extractLsb'_toNat]

theorem nnnOf_toNat (op : Word) : (nnnOf op).toNat = op.toNat % 4096 := by simp [nnnOf, BitVec.extractLsb'_toNat]

/-! ### The fields of a word built in a format -/

theorem fields_encodeNNN (c : Nibble) (nnn : Addr12) :
    classOf (encodeNNN c nnn) = c ∧ nnnOf (encodeNNN c nnn) = nnn := by
  have := nnn.isLt
  constructor <;> apply BitVec.eq_of_toNat_eq <;> simp only [classOf_toNat, nnnOf_toNat, encodeNNN_toNat] <;> omega

theorem fields_encodeXNN (c x : Nibble) (nn : Byte) :
    classOf (encodeXNN c x nn) = c ∧ xOf (encodeXNN c x nn) = x ∧ nnOf (encodeXNN c x nn) = nn := by
  have := nn.isLt
  have := x.isLt
  refine ⟨?_, ?_, ?_⟩ <;> apply BitVec.eq_of_toNat_eq <;>
    simp only [classOf_toNat, xOf_toNat, nnOf_toNat, encodeXNN_toNat] <;> omega

theorem fields_encodeNibbles (c x y n : Nibble) :
    classOf (encodeNibbles c x y n) = c ∧ xOf (encodeNibbles c x y n) = x ∧
      yOf (encodeNibbles c x y n) = y ∧ nOf (encodeNibbles c x y n) = n := by
  have := n.isLt
  have := x.isLt
  have := y.isLt
  refine ⟨?_, ?_, ?_, ?_⟩ <;> apply BitVec.eq_of_toNat_eq <;>
    simp only [classOf_toNat, xOf_toNat, yOf_toNat, nOf_toNat, encodeNibbles_toNat] <;> omega

/-! ### A word is built of its fields -/

theorem encodeNNN_fields (op : Word) : encodeNNN (classOf op) (nnnOf op) = op := by
  apply BitVec.eq_of_toNat_eq
  rw [encodeNNN_toNat, classOf_toNat, nnnOf_toNat]; omega

theorem encodeXNN_fields (op : Word) : encodeXNN (classOf op) (xOf op) (nnOf op) = op := by
  apply BitVec.eq_of_toNat_eq
  rw [encodeXNN_toNat, classOf_toNat, xOf_toNat, nnOf_toNat]; omega

theorem encodeNibbles_fields (op : Word) : encodeNibbles (classOf op) (xOf op) (yOf op) (nOf op) = op := by
  apply BitVec.eq_of_toNat_eq
  rw [encodeNibbles_toNat, classOf_toNat, xOf_toNat, yOf_toNat, nOf_toNat]; omega

/-- The bytes of an opcode make the opcode again. -/
theorem opcodeOfBytes_bytes (op : Word) : opcodeOfBytes (op.extractLsb' 8 8) (op.extractLsb' 0 8) = op := by
  apply BitVec.eq_of_toNat_eq
  have h := toNat_append_mul (op.extractLsb' 8 8) (op.extractLsb' 0 8)
  refine Eq.trans (show (opcodeOfBytes (op.extractLsb' 8 8) (op.extractLsb' 0 8)).toNat = _ from h) ?_
  have := op.isLt
  simp only [BitVec.extractLsb'_toNat, Nat.shiftRight_eq_div_pow]; omega

/-- The class that `decode`'s last arm is left with. -/
theorem nibble_last {c : Nibble} (h0 : c ≠ 0) (h1 : c ≠ 1) (h2 : c ≠ 2) (h3 : c ≠ 3) (h4 : c ≠ 4) (h5 : c ≠ 5)
    (h6 : c ≠ 6) (h7 : c ≠ 7) (h8 : c ≠ 8) (h9 : c ≠ 9) (h10 : c ≠ 0xA) (h11 : c ≠ 0xB) (h12 : c ≠ 0xC)
    (h13 : c ≠ 0xD) (h14 : c ≠ 0xE) : c = 0xF := by
  have := c.isLt
  simp only [ne_eq, ← BitVec.toNat_inj, BitVec.ofNat_eq_ofNat, BitVec.toNat_ofNat] at *
  omega

/-! ### What the masks of the opcode map keep -/

theorem and_classMask (op : Word) : op &&& 0xF000 = encodeNNN (classOf op) 0 := by
  rw [← encodeNNN_fields op]
  generalize classOf op = c
  generalize nnnOf op = n
  rw [(fields_encodeNNN c n).1]
  refine BitVec.eq_of_getLsbD_eq fun k hk => ?_
  rw [BitVec.getLsbD_and]
  have h1 : (encodeNNN c n).getLsbD k = if k < 12 then n.getLsbD k else c.getLsbD (k - 12) := BitVec.getLsbD_append
  have h2 : (encodeNNN c 0).getLsbD k = if k < 12 then (0 : Addr12).getLsbD k else c.getLsbD (k - 12) :=
    BitVec.getLsbD_append
  rw [h1, h2]
  interval_cases k <;> simp

theorem and_aluMask (op : Word) : op &&& 0xF00F = encodeNibbles (classOf op) 0 0 (nOf op) := by
  rw [← encodeNibbles_fields op]
  generalize classOf op = c
  generalize xOf op = x
  generalize yOf op = y
  generalize nOf op = n
  rw [(fields_encodeNibbles c x y n).1, (fields_encodeNibbles c x y n).2.2.2]
  refine BitVec.eq_of_getLsbD_eq fun k hk => ?_
  rw [BitVec.getLsbD_and]
  have hb : ∀ a b d e : Nibble, (encodeNibbles a b d e).getLsbD k =
      if k < 4 then e.getLsbD k else if k - 4 < 4 then d.getLsbD (k - 4)
      else if k - 4 - 4 < 4 then b.getLsbD (k - 4 - 4) else a.getLsbD (k - 4 - 4 - 4) := by
    intro a b d e
    refine (BitVec.getLsbD_append (x := a ++ b ++ d) (y := e)).trans ?_
    rw [BitVec.getLsbD_append, BitVec.getLsbD_append]
  rw [hb, hb]
  interval_cases k <;> simp

theorem and_selectorMask (op : Word) : op &&& 0xF0FF = encodeXNN (classOf op) 0 (nnOf op) := by
  rw [← encodeXNN_fields op]
  generalize classOf op = c
  generalize xOf op = x
  generalize nnOf op = n
  rw [(fields_encodeXNN c x n).1, (fields_encodeXNN c x n).2.2]
  refine BitVec.eq_of_getLsbD_eq fun k hk => ?_
  rw [BitVec.getLsbD_and]
  have hb : ∀ (a b : Nibble) (e : Byte), (encodeXNN a b e).getLsbD k =
      if k < 8 then e.getLsbD k else if k - 8 < 4 then b.getLsbD (k - 8) else a.getLsbD (k - 8 - 4) := by
    intro a b e
    refine (BitVec.getLsbD_append (x := a ++ b) (y := e)).trans ?_
    rw [BitVec.getLsbD_append]
  rw [hb, hb]
  interval_cases k <;> simp

theorem and_fullMask (op : Word) : op &&& 0xFFFF = op := by
  have : (0xFFFF : Word) = BitVec.allOnes 16 := by decide
  rw [this, BitVec.and_allOnes]

end Sys2Proof
end

