-- ==== Sys2Proof/Laws/State.lean ====
section
/-! SUPPORT. One lemma per field per update of the state, each true by rfl, and what the readers of registers, memory
and keys give after an update. -/

namespace Sys2Proof.Machine

variable (s : State)

/-! ### setV -/

@[simp] theorem setV_mem (r : Nibble) (b : Byte) : (s.setV r b).mem = s.mem := rfl
@[simp] theorem setV_v (r : Nibble) (b : Byte) : (s.setV r b).v = s.v.set r.toNat b r.isLt := rfl
@[simp] theorem setV_i (r : Nibble) (b : Byte) : (s.setV r b).i = s.i := rfl
@[simp] theorem setV_pc (r : Nibble) (b : Byte) : (s.setV r b).pc = s.pc := rfl
@[simp] theorem setV_stack (r : Nibble) (b : Byte) : (s.setV r b).stack = s.stack := rfl
@[simp] theorem setV_sp (r : Nibble) (b : Byte) : (s.setV r b).sp = s.sp := rfl
@[simp] theorem setV_dt (r : Nibble) (b : Byte) : (s.setV r b).dt = s.dt := rfl
@[simp] theorem setV_st (r : Nibble) (b : Byte) : (s.setV r b).st = s.st := rfl
@[simp] theorem setV_fb (r : Nibble) (b : Byte) : (s.setV r b).fb = s.fb := rfl
@[simp] theorem setV_key (r : Nibble) (b : Byte) : (s.setV r b).key = s.key := rfl
@[simp] theorem setV_mode (r : Nibble) (b : Byte) : (s.setV r b).mode = s.mode := rfl
@[simp] theorem setV_draw (r : Nibble) (b : Byte) : (s.setV r b).draw = s.draw := rfl
@[simp] theorem setV_report (r : Nibble) (b : Byte) : (s.setV r b).report = s.report := rfl
@[simp] theorem setV_rndIn (r : Nibble) (b : Byte) : (s.setV r b).rndIn = s.rndIn := rfl
@[simp] theorem setV_rndCount (r : Nibble) (b : Byte) : (s.setV r b).rndCount = s.rndCount := rfl
@[simp] theorem setV_readMem (r : Nibble) (b : Byte) (a : Nat) : (s.setV r b).readMem a = s.readMem a := rfl
@[simp] theorem setV_getKey (r : Nibble) (b : Byte) (q : Nibble) : (s.setV r b).getKey q = s.getKey q := rfl

/-! ### setPc -/

@[simp] theorem setPc_mem (w : Word) : (s.setPc w).mem = s.mem := rfl
@[simp] theorem setPc_v (w : Word) : (s.setPc w).v = s.v := rfl
@[simp] theorem setPc_i (w : Word) : (s.setPc w).i = s.i := rfl
@[simp] theorem setPc_pc (w : Word) : (s.setPc w).pc = w := rfl
@[simp] theorem setPc_stack (w : Word) : (s.setPc w).stack = s.stack := rfl
@[simp] theorem setPc_sp (w : Word) : (s.setPc w).sp = s.sp := rfl
@[simp] theorem setPc_dt (w : Word) : (s.setPc w).dt = s.dt := rfl
@[simp] theorem setPc_st (w : Word) : (s.setPc w).st = s.st := rfl
@[simp] theorem setPc_fb (w : Word) : (s.setPc w).fb = s.fb := rfl
@[simp] theorem setPc_key (w : Word) : (s.setPc w).key = s.key := rfl
@[simp] theorem setPc_mode (w : Word) : (s.setPc w).mode = s.mode := rfl
@[simp] theorem setPc_draw (w : Word) : (s.setPc w).draw = s.draw := rfl
@[simp] theorem setPc_report (w : Word) : (s.setPc w).report = s.report := rfl
@[simp] theorem setPc_rndIn (w : Word) : (s.setPc w).rndIn = s.rndIn := rfl
@[simp] theorem setPc_rndCount (w : Word) : (s.setPc w).rndCount = s.rndCount := rfl
@[simp] theorem setPc_getV (w : Word) (q : Nibble) : (s.setPc w).getV q = s.getV q := rfl
@[simp] theorem setPc_readMem (w : Word) (a : Nat) : (s.setPc w).readMem a = s.readMem a := rfl
@[simp] theorem setPc_getKey (w : Word) (q : Nibble) : (s.setPc w).getKey q = s.getKey q := rfl

/-! ### advance -/

@[simp] theorem advance_mem : (s.advance).mem = s.mem := rfl
@[simp] theorem advance_v : (s.advance).v = s.v := rfl
@[simp] theorem advance_i : (s.advance).i = s.i := rfl
@[simp] theorem advance_pc : (s.advance).pc = s.pc + 2 := rfl
@[simp] theorem advance_stack : (s.advance).stack = s.stack := rfl
@[simp] theorem advance_sp : (s.advance).sp = s.sp := rfl
@[simp] theorem advance_dt : (s.advance).dt = s.dt := rfl
@[simp] theorem advance_st : (s.advance).st = s.st := rfl
@[simp] theorem advance_fb : (s.advance).fb = s.fb := rfl
@[simp] theorem advance_key : (s.advance).key = s.key := rfl
@[simp] theorem advance_mode : (s.advance).mode = s.mode := rfl
@[simp] theorem advance_draw : (s.advance).draw = s.draw := rfl
@[simp] theorem advance_report : (s.advance).report = s.report := rfl
@[simp] theorem advance_rndIn : (s.advance).rndIn = s.rndIn := rfl
@[simp] theorem advance_rndCount : (s.advance).rndCount = s.rndCount := rfl
@[simp] theorem advance_getV (q : Nibble) : (s.advance).getV q = s.getV q := rfl
@[simp] theorem advance_readMem (a : Nat) : (s.advance).readMem a = s.readMem a := rfl
@[simp] theorem advance_getKey (q : Nibble) : (s.advance).getKey q = s.getKey q := rfl

/-! ### skipIf -/

@[simp] theorem skipIf_mem (c : Bool) : (s.skipIf c).mem = s.mem := rfl
@[simp] theorem skipIf_v (c : Bool) : (s.skipIf c).v = s.v := rfl
@[simp] theorem skipIf_i (c : Bool) : (s.skipIf c).i = s.i := rfl
@[simp] theorem skipIf_pc (c : Bool) : (s.skipIf c).pc = if c then s.pc + 2 + 2 else s.pc + 2 := rfl
@[simp] theorem skipIf_stack (c : Bool) : (s.skipIf c).stack = s.stack := rfl
@[simp] theorem skipIf_sp (c : Bool) : (s.skipIf c).sp = s.sp := rfl
@[simp] theorem skipIf_dt (c : Bool) : (s.skipIf c).dt = s.dt := rfl
@[simp] theorem skipIf_st (c : Bool) : (s.skipIf c).st = s.st := rfl
@[simp] theorem skipIf_fb (c : Bool) : (s.skipIf c).fb = s.fb := rfl
@[simp] theorem skipIf_key (c : Bool) : (s.skipIf c).key = s.key := rfl
@[simp] theorem skipIf_mode (c : Bool) : (s.skipIf c).mode = s.mode := rfl
@[simp] theorem skipIf_draw (c : Bool) : (s.skipIf c).draw = s.draw := rfl
@[simp] theorem skipIf_report (c : Bool) : (s.skipIf c).report = s.report := rfl
@[simp] theorem skipIf_rndIn (c : Bool) : (s.skipIf c).rndIn = s.rndIn := rfl
@[simp] theorem skipIf_rndCount (c : Bool) : (s.skipIf c).rndCount = s.rndCount := rfl
@[simp] theorem skipIf_getV (c : Bool) (q : Nibble) : (s.skipIf c).getV q = s.getV q := rfl
@[simp] theorem skipIf_readMem (c : Bool) (a : Nat) : (s.skipIf c).readMem a = s.readMem a := rfl
@[simp] theorem skipIf_getKey (c : Bool) (q : Nibble) : (s.skipIf c).getKey q = s.getKey q := rfl

/-! ### storeBytes -/

@[simp] theorem storeBytes_mem (base : Nat) (bs : List Byte) : (s.storeBytes base bs).mem = Memory.writeBytes s.mem base bs := rfl
@[simp] theorem storeBytes_v (base : Nat) (bs : List Byte) : (s.storeBytes base bs).v = s.v := rfl
@[simp] theorem storeBytes_i (base : Nat) (bs : List Byte) : (s.storeBytes base bs).i = s.i := rfl
@[simp] theorem storeBytes_pc (base : Nat) (bs : List Byte) : (s.storeBytes base bs).pc = s.pc := rfl
@[simp] theorem storeBytes_stack (base : Nat) (bs : List Byte) : (s.storeBytes base bs).stack = s.stack := rfl
@[simp] theorem storeBytes_sp (base : Nat) (bs : List Byte) : (s.storeBytes base bs).sp = s.sp := rfl
@[simp] theorem storeBytes_dt (base : Nat) (bs : List Byte) : (s.storeBytes base bs).dt = s.dt := rfl
@[simp] theorem storeBytes_st (base : Nat) (bs : List Byte) : (s.storeBytes base bs).st = s.st := rfl
@[simp] theorem storeBytes_fb (base : Nat) (bs : List Byte) : (s.storeBytes base bs).fb = s.fb := rfl
@[simp] theorem storeBytes_key (base : Nat) (bs : List Byte) : (s.storeBytes base bs).key = s.key := rfl
@[simp] theorem storeBytes_mode (base : Nat) (bs : List Byte) : (s.storeBytes base bs).mode = s.mode := rfl
@[simp] theorem storeBytes_draw (base : Nat) (bs : List Byte) : (s.storeBytes base bs).draw = s.draw := rfl
@[simp] theorem storeBytes_report (base : Nat) (bs : List Byte) : (s.storeBytes base bs).report = s.report := rfl
@[simp] theorem storeBytes_rndIn (base : Nat) (bs : List Byte) : (s.storeBytes base bs).rndIn = s.rndIn := rfl
@[simp] theorem storeBytes_rndCount (base : Nat) (bs : List Byte) : (s.storeBytes base bs).rndCount = s.rndCount := rfl
@[simp] theorem storeBytes_getV (base : Nat) (bs : List Byte) (q : Nibble) : (s.storeBytes base bs).getV q = s.getV q := rfl
@[simp] theorem storeBytes_getKey (base : Nat) (bs : List Byte) (q : Nibble) : (s.storeBytes base bs).getKey q = s.getKey q := rfl

/-! ### setKeySlot -/

@[simp] theorem setKeySlot_mem (k : Nibble) (p : Bool) : (s.setKeySlot k p).mem = s.mem := rfl
@[simp] theorem setKeySlot_v (k : Nibble) (p : Bool) : (s.setKeySlot k p).v = s.v := rfl
@[simp] theorem setKeySlot_i (k : Nibble) (p : Bool) : (s.setKeySlot k p).i = s.i := rfl
@[simp] theorem setKeySlot_pc (k : Nibble) (p : Bool) : (s.setKeySlot k p).pc = s.pc := rfl
@[simp] theorem setKeySlot_stack (k : Nibble) (p : Bool) : (s.setKeySlot k p).stack = s.stack := rfl
@[simp] theorem setKeySlot_sp (k : Nibble) (p : Bool) : (s.setKeySlot k p).sp = s.sp := rfl
@[simp] theorem setKeySlot_dt (k : Nibble) (p : Bool) : (s.setKeySlot k p).dt = s.dt := rfl
@[simp] theorem setKeySlot_st (k : Nibble) (p : Bool) : (s.setKeySlot k p).st = s.st := rfl
@[simp] theorem setKeySlot_fb (k : Nibble) (p : Bool) : (s.setKeySlot k p).fb = s.fb := rfl
@[simp] theorem setKeySlot_key (k : Nibble) (p : Bool) : (s.setKeySlot k p).key = s.key.set k.toNat p k.isLt := rfl
@[simp] theorem setKeySlot_mode (k : Nibble) (p : Bool) : (s.setKeySlot k p).mode = s.mode := rfl
@[simp] theorem setKeySlot_draw (k : Nibble) (p : Bool) : (s.setKeySlot k p).draw = s.draw := rfl
@[simp] theorem setKeySlot_report (k : Nibble) (p : Bool) : (s.setKeySlot k p).report = s.report := rfl
@[simp] theorem setKeySlot_rndIn (k : Nibble) (p : Bool) : (s.setKeySlot k p).rndIn = s.rndIn := rfl
@[simp] theorem setKeySlot_rndCount (k : Nibble) (p : Bool) : (s.setKeySlot k p).rndCount = s.rndCount := rfl
@[simp] theorem setKeySlot_getV (k : Nibble) (p : Bool) (q : Nibble) : (s.setKeySlot k p).getV q = s.getV q := rfl
@[simp] theorem setKeySlot_readMem (k : Nibble) (p : Bool) (a : Nat) : (s.setKeySlot k p).readMem a = s.readMem a := rfl

/-! ### takeReport -/

@[simp] theorem takeReport_mem (r : Report) : (s.takeReport r).mem = s.mem := rfl
@[simp] theorem takeReport_v (r : Report) : (s.takeReport r).v = s.v := rfl
@[simp] theorem takeReport_i (r : Report) : (s.takeReport r).i = s.i := rfl
@[simp] theorem takeReport_pc (r : Report) : (s.takeReport r).pc = r.recoveryPc s.pc := rfl
@[simp] theorem takeReport_stack (r : Report) : (s.takeReport r).stack = s.stack := rfl
@[simp] theorem takeReport_sp (r : Report) : (s.takeReport r).sp = s.sp := rfl
@[simp] theorem takeReport_dt (r : Report) : (s.takeReport r).dt = s.dt := rfl
@[simp] theorem takeReport_st (r : Report) : (s.takeReport r).st = s.st := rfl
@[simp] theorem takeReport_fb (r : Report) : (s.takeReport r).fb = s.fb := rfl
@[simp] theorem takeReport_key (r : Report) : (s.takeReport r).key = s.key := rfl
@[simp] theorem takeReport_mode (r : Report) : (s.takeReport r).mode = s.mode := rfl
@[simp] theorem takeReport_draw (r : Report) : (s.takeReport r).draw = s.draw := rfl
@[simp] theorem takeReport_report (r : Report) : (s.takeReport r).report = some r := rfl
@[simp] theorem takeReport_rndIn (r : Report) : (s.takeReport r).rndIn = s.rndIn := rfl
@[simp] theorem takeReport_rndCount (r : Report) : (s.takeReport r).rndCount = s.rndCount := rfl
@[simp] theorem takeReport_getV (r : Report) (q : Nibble) : (s.takeReport r).getV q = s.getV q := rfl
@[simp] theorem takeReport_readMem (r : Report) (a : Nat) : (s.takeReport r).readMem a = s.readMem a := rfl
@[simp] theorem takeReport_getKey (r : Report) (q : Nibble) : (s.takeReport r).getKey q = s.getKey q := rfl

/-! ### clearReport -/

@[simp] theorem clearReport_mem : (s.clearReport).mem = s.mem := rfl
@[simp] theorem clearReport_v : (s.clearReport).v = s.v := rfl
@[simp] theorem clearReport_i : (s.clearReport).i = s.i := rfl
@[simp] theorem clearReport_pc : (s.clearReport).pc = s.pc := rfl
@[simp] theorem clearReport_stack : (s.clearReport).stack = s.stack := rfl
@[simp] theorem clearReport_sp : (s.clearReport).sp = s.sp := rfl
@[simp] theorem clearReport_dt : (s.clearReport).dt = s.dt := rfl
@[simp] theorem clearReport_st : (s.clearReport).st = s.st := rfl
@[simp] theorem clearReport_fb : (s.clearReport).fb = s.fb := rfl
@[simp] theorem clearReport_key : (s.clearReport).key = s.key := rfl
@[simp] theorem clearReport_mode : (s.clearReport).mode = s.mode := rfl
@[simp] theorem clearReport_draw : (s.clearReport).draw = s.draw := rfl
@[simp] theorem clearReport_report : (s.clearReport).report = none := rfl
@[simp] theorem clearReport_rndIn : (s.clearReport).rndIn = s.rndIn := rfl
@[simp] theorem clearReport_rndCount : (s.clearReport).rndCount = s.rndCount := rfl
@[simp] theorem clearReport_getV (q : Nibble) : (s.clearReport).getV q = s.getV q := rfl
@[simp] theorem clearReport_readMem (a : Nat) : (s.clearReport).readMem a = s.readMem a := rfl
@[simp] theorem clearReport_getKey (q : Nibble) : (s.clearReport).getKey q = s.getKey q := rfl

/-! ### drawRandom -/

@[simp] theorem drawRandom_mem : (s.drawRandom).mem = s.mem := rfl
@[simp] theorem drawRandom_v : (s.drawRandom).v = s.v := rfl
@[simp] theorem drawRandom_i : (s.drawRandom).i = s.i := rfl
@[simp] theorem drawRandom_pc : (s.drawRandom).pc = s.pc := rfl
@[simp] theorem drawRandom_stack : (s.drawRandom).stack = s.stack := rfl
@[simp] theorem drawRandom_sp : (s.drawRandom).sp = s.sp := rfl
@[simp] theorem drawRandom_dt : (s.drawRandom).dt = s.dt := rfl
@[simp] theorem drawRandom_st : (s.drawRandom).st = s.st := rfl
@[simp] theorem drawRandom_fb : (s.drawRandom).fb = s.fb := rfl
@[simp] theorem drawRandom_key : (s.drawRandom).key = s.key := rfl
@[simp] theorem drawRandom_mode : (s.drawRandom).mode = s.mode := rfl
@[simp] theorem drawRandom_draw : (s.drawRandom).draw = s.draw := rfl
@[simp] theorem drawRandom_report : (s.drawRandom).report = s.report := rfl
@[simp] theorem drawRandom_rndIn : (s.drawRandom).rndIn = s.rndIn := rfl
@[simp] theorem drawRandom_rndCount : (s.drawRandom).rndCount = s.rndCount + 1 := rfl
@[simp] theorem drawRandom_getV (q : Nibble) : (s.drawRandom).getV q = s.getV q := rfl
@[simp] theorem drawRandom_readMem (a : Nat) : (s.drawRandom).readMem a = s.readMem a := rfl
@[simp] theorem drawRandom_getKey (q : Nibble) : (s.drawRandom).getKey q = s.getKey q := rfl

/-! ### Readers after the update they read -/

theorem getV_setV (r q : Nibble) (b : Byte) : (s.setV r b).getV q = if r = q then b else s.getV q := by
  simp only [State.getV, State.setV, Vector.getElem_set, BitVec.toNat_inj]

@[simp] theorem getV_setV_same (r : Nibble) (b : Byte) : (s.setV r b).getV r = b := by simp [getV_setV]

theorem getV_setV_ne {s : State} {r q : Nibble} (h : q ≠ r) (b : Byte) : (s.setV r b).getV q = s.getV q := by
  simp [getV_setV, h.symm]

theorem getKey_setKeySlot (k q : Nibble) (p : Bool) :
    (s.setKeySlot k p).getKey q = if k = q then p else s.getKey q := by
  simp only [State.getKey, State.setKeySlot, Vector.getElem_set, BitVec.toNat_inj]

/-- The order of FLAG_WRITTEN_LAST: VX, then VF. -/
@[simp] theorem setResultAndFlag_eq (x : Nibble) (b f : Byte) :
    s.setResultAndFlag x b f = (s.setV x b).setV flagReg f := rfl

end Sys2Proof.Machine
end

