-- ==== Sys2Proof/Laws/Display.lean ====
section
/-! SUPPORT. What the drawing loop does, said once: every pixel is XORed with the sprite's bit over it, and the
collision is that some such bit met a set pixel (spec/43_display.md R176, R177). -/

namespace Sys2Proof.Machine

theorem pixel_togglePixel (fb : Framebuffer) (x y px py : Nat) :
    pixel (togglePixel fb x y) px py =
      (pixel fb px py ^^ decide (x = px ∧ y = py ∧ px < 64 ∧ py < 32)) := by
  unfold togglePixel
  by_cases hxy : x < 64 ∧ y < 32
  · rw [dif_pos hxy]
    by_cases hp : px < 64 ∧ py < 32
    · simp only [pixel, dif_pos hp]
      by_cases hy : y = py
      · subst hy
        by_cases hx : x = px
        · subst hx; simp [hp.1, hp.2]
        · simp [Vector.getElem_set_ne, hx]
      · simp [Vector.getElem_set_ne, hy]
    · simp only [pixel, dif_neg hp]
      simp; omega
  · rw [dif_neg hxy]
    have : ¬ (x = px ∧ y = py ∧ px < 64 ∧ py < 32) := by omega
    simp [this]

/-- The bit of a sprite over a screen position: rows `r` to `r + n - 1` of the sprite at `base`, drawn at (`ox`, `oy`). -/
def spriteOver (m : Memory) (base ox oy r n px py : Nat) : Bool :=
  decide (ox ≤ px ∧ px < ox + 8 ∧ oy + r ≤ py ∧ py < oy + r + n) &&
    spriteBit (Memory.read m (base + (py - oy))) (px - ox)

/-- One row: the bit over column `px` is toggled into it. -/
theorem drawRow_pixel (row : Byte) (ox y : Nat) (b k : Nat) (c : Canvas) {px py : Nat} (hx : px < 64) (hy : py < 32) :
    pixel (drawRow row ox y (List.range' b k) c).fb px py =
      (pixel c.fb px py ^^
        (decide (py = y ∧ ox + b ≤ px ∧ px < ox + b + k) && spriteBit row (px - ox))) := by
  induction k generalizing b c with
  | zero =>
    have : ¬ (py = y ∧ ox + b ≤ px ∧ px < ox + b + 0) := by omega
    simp only [List.range'_zero, drawRow, this, decide_false, Bool.false_and, Bool.xor_false]
  | succ k ih =>
    rw [List.range'_succ, drawRow]
    by_cases hbr : 64 ≤ ox + b
    · have : ¬ (py = y ∧ ox + b ≤ px ∧ px < ox + b + (k + 1)) := by omega
      simp only [hbr, if_true, this, decide_false, Bool.false_and, Bool.xor_false]
    · rw [if_neg hbr, ih]
      by_cases hhere : py = y ∧ px = ox + b
      · obtain ⟨rfl, rfl⟩ := hhere
        have h1 : ¬ (ox + (b + 1) ≤ ox + b) := by omega
        cases hs : spriteBit row b <;>
          simp [Canvas.plot, pixel_togglePixel, hx, hy, hs]
      · have hmask : (py = y ∧ ox + b ≤ px ∧ px < ox + b + (k + 1)) ↔
            (py = y ∧ ox + (b + 1) ≤ px ∧ px < ox + (b + 1) + k) := by omega
        have hkeep : pixel (if spriteBit row b then c.plot (ox + b) y else c).fb px py = pixel c.fb px py := by
          split
          · have : ¬ (ox + b = px ∧ y = py ∧ px < 64 ∧ py < 32) := by omega
            simp only [Canvas.plot, pixel_togglePixel, this, decide_false, Bool.xor_false]
          · rfl
        simp only [hkeep, hmask]

/-- One row: the collision is that a set bit of the row met a set pixel. -/
theorem drawRow_collision (row : Byte) (ox y : Nat) (b k : Nat) (c : Canvas) :
    (drawRow row ox y (List.range' b k) c).collision = true ↔
      (c.collision = true ∨ ∃ px, px < 64 ∧ ox + b ≤ px ∧ px < ox + b + k ∧
        spriteBit row (px - ox) = true ∧ pixel c.fb px y = true) := by
  induction k generalizing b c with
  | zero =>
    simp only [List.range'_zero, drawRow]
    exact ⟨Or.inl, fun h => h.resolve_right (by rintro ⟨px, _, h1, h2, _⟩; omega)⟩
  | succ k ih =>
    rw [List.range'_succ, drawRow]
    by_cases hbr : 64 ≤ ox + b
    · rw [if_pos hbr]
      exact ⟨Or.inl, fun h => h.resolve_right (by rintro ⟨px, h0, h1, _⟩; omega)⟩
    · rw [if_neg hbr, ih]
      have hkeep : ∀ px, ox + (b + 1) ≤ px →
          pixel (if spriteBit row b then c.plot (ox + b) y else c).fb px y = pixel c.fb px y := by
        intro px hpx
        split
        · have : ox + b ≠ px := by omega
          simp [Canvas.plot, pixel_togglePixel, this]
        · rfl
      constructor
      · rintro (hc | ⟨px, h0, h1, h2, h3, h4⟩)
        · cases hs : spriteBit row b with
          | false => rw [hs] at hc; exact .inl (by simpa using hc)
          | true =>
            rw [hs] at hc
            simp only [if_true, Canvas.plot, Bool.or_eq_true] at hc
            rcases hc with hc | hc
            · exact .inl hc
            · exact .inr ⟨ox + b, by omega, by omega, by omega, by simpa using hs, hc⟩
        · rw [hkeep px h1] at h4
          exact .inr ⟨px, h0, by omega, by omega, h3, h4⟩
      · rintro (hc | ⟨px, h0, h1, h2, h3, h4⟩)
        · left; split
          · simp [Canvas.plot, hc]
          · exact hc
        · by_cases hpx : px = ox + b
          · subst hpx
            left
            have hs : spriteBit row b = true := by simpa using h3
            simp [hs, Canvas.plot, h4]
          · right
            exact ⟨px, h0, by omega, by omega, h3, by rw [hkeep px (by omega)]; exact h4⟩

/-- The whole sprite: every pixel is XORed with the sprite's bit over it (R178 (c)). -/
theorem drawRows_pixel (m : Memory) (base ox oy n r : Nat) (c : Canvas) {px py : Nat} (hx : px < 64) (hy : py < 32) :
    pixel (drawRows m base ox oy n r c).fb px py = (pixel c.fb px py ^^ spriteOver m base ox oy r n px py) := by
  induction n generalizing r c with
  | zero =>
    have : ¬ (ox ≤ px ∧ px < ox + 8 ∧ oy + r ≤ py ∧ py < oy + r + 0) := by omega
    simp only [drawRows, spriteOver, this, decide_false, Bool.false_and, Bool.xor_false]
  | succ n ih =>
    rw [drawRows]
    by_cases hbr : 32 ≤ oy + r
    · have : ¬ (ox ≤ px ∧ px < ox + 8 ∧ oy + r ≤ py ∧ py < oy + r + (n + 1)) := by omega
      simp only [hbr, if_true, spriteOver, this, decide_false, Bool.false_and, Bool.xor_false]
    · rw [if_neg hbr, ih, show bitOffsets = List.range' 0 8 from rfl, drawRow_pixel _ _ _ _ _ _ hx hy]
      by_cases hrow : py = oy + r
      · subst hrow
        have h1 : ¬ (ox ≤ px ∧ px < ox + 8 ∧ oy + (r + 1) ≤ oy + r ∧ oy + r < oy + (r + 1) + n) := by omega
        have h2 : (ox ≤ px ∧ px < ox + 8 ∧ oy + r ≤ oy + r ∧ oy + r < oy + r + (n + 1)) ↔
            (oy + r = oy + r ∧ ox + 0 ≤ px ∧ px < ox + 0 + 8) := by omega
        simp only [spriteOver, h1, h2, decide_false, Bool.false_and, Bool.xor_false]
        rw [show oy + r - oy = r by omega]
      · have h1 : ¬ (py = oy + r ∧ ox + 0 ≤ px ∧ px < ox + 0 + 8) := by omega
        have h2 : (ox ≤ px ∧ px < ox + 8 ∧ oy + r ≤ py ∧ py < oy + r + (n + 1)) ↔
            (ox ≤ px ∧ px < ox + 8 ∧ oy + (r + 1) ≤ py ∧ py < oy + (r + 1) + n) := by omega
        simp only [spriteOver, h1, h2, decide_false, Bool.false_and, Bool.xor_false]

/-- The whole sprite: the collision is that some set bit over the screen met a set pixel (R177). -/
theorem drawRows_collision (m : Memory) (base ox oy n r : Nat) (c : Canvas) :
    (drawRows m base ox oy n r c).collision = true ↔
      (c.collision = true ∨ ∃ px py, px < 64 ∧ py < 32 ∧ spriteOver m base ox oy r n px py = true ∧
        pixel c.fb px py = true) := by
  have hover : ∀ {r n px py}, spriteOver m base ox oy r n px py = true ↔
      ((ox ≤ px ∧ px < ox + 8 ∧ oy + r ≤ py ∧ py < oy + r + n) ∧
        spriteBit (Memory.read m (base + (py - oy))) (px - ox) = true) := by
    intros; simp only [spriteOver, Bool.and_eq_true, decide_eq_true_eq]
  induction n generalizing r c with
  | zero =>
    simp only [drawRows]
    exact ⟨Or.inl, fun h => h.resolve_right (by rintro ⟨px, py, _, _, h2, _⟩; rw [hover] at h2; omega)⟩
  | succ n ih =>
    rw [drawRows]
    by_cases hbr : 32 ≤ oy + r
    · rw [if_pos hbr]
      exact ⟨Or.inl, fun h => h.resolve_right (by rintro ⟨px, py, _, _, h2, _⟩; rw [hover] at h2; omega)⟩
    · rw [if_neg hbr]
      refine (ih _ _).trans ?_
      rw [show bitOffsets = List.range' 0 8 from rfl, drawRow_collision]
      have hkeep : ∀ {px py}, px < 64 → py < 32 → oy + (r + 1) ≤ py →
          pixel (drawRow (Memory.read m (base + r)) ox (oy + r) (List.range' 0 8) c).fb px py = pixel c.fb px py := by
        intro px py hx hy hpy
        have : ¬ (py = oy + r ∧ ox + 0 ≤ px ∧ px < ox + 0 + 8) := by omega
        rw [drawRow_pixel _ _ _ _ _ _ hx hy]
        simp only [this, decide_false, Bool.false_and, Bool.xor_false]
      constructor
      · rintro ((hc | ⟨px, h0, h1, h2, h3, h4⟩) | ⟨px, py, h0, h1, h2, h3⟩)
        · exact .inl hc
        · refine .inr ⟨px, oy + r, h0, by omega, hover.2 ⟨by omega, ?_⟩, h4⟩
          rwa [show oy + r - oy = r by omega]
        · have h2' := hover.1 h2
          rw [hkeep h0 h1 h2'.1.2.2.1] at h3
          exact .inr ⟨px, py, h0, h1, hover.2 ⟨by omega, h2'.2⟩, h3⟩
      · rintro (hc | ⟨px, py, h0, h1, h2, h3⟩)
        · exact .inl (.inl hc)
        · have h2' := hover.1 h2
          by_cases hrow : py = oy + r
          · subst hrow
            have h4 := h2'.2
            rw [show oy + r - oy = r by omega] at h4
            exact .inl (.inr ⟨px, h0, by omega, by omega, h4, h3⟩)
          · exact .inr ⟨px, py, h0, h1, hover.2 ⟨by omega, h2'.2⟩, by rw [hkeep h0 h1 (by omega)]; exact h3⟩

/-- Two framebuffers with equal pixels are equal. -/
theorem framebuffer_ext {fb fb' : Framebuffer} (h : ∀ px py, px < 64 → py < 32 → pixel fb px py = pixel fb' px py) :
    fb = fb' := by
  refine Vector.ext fun y hy => Vector.ext fun x hx => ?_
  have := h x y hx hy
  simpa [pixel, hx, hy] using this

end Sys2Proof.Machine
end

