-- ==== Sys2Proof/Laws/Memory.lean ====
section
/-! SUPPORT. The laws of memory: a read after a write, the canonical form kept, and what the range checks say. -/

namespace Sys2Proof.Machine

namespace Memory

/-! ### Reads after writes -/

theorem read_cons_self (a : Nat) (b : Byte) (m : Memory) (h : read m a = resetByte a) :
    read (cons a b m) a = b := by
  unfold cons
  split
  · next hb => rw [h, hb]
  · simp [read]

theorem read_cons_ne {a a' : Nat} (h : a' ≠ a) (b : Byte) (m : Memory) : read (cons a b m) a' = read m a' := by
  unfold cons
  split
  · rfl
  · simp [read, h.symm]

theorem read_write_ne {a a' : Nat} (h : a' ≠ a) (b : Byte) (m : Memory) : read (write m a b) a' = read m a' := by
  induction m with
  | nil => exact read_cons_ne h b []
  | cons kc m ih =>
    obtain ⟨k, c⟩ := kc
    simp only [write]
    split
    · exact read_cons_ne h b _
    · split
      · next hk => subst hk; rw [read_cons_ne h]; simp [read, h.symm]
      · simp [read, ih]

/-- Below the first listed address a memory reads as its reset contents. -/
theorem read_of_lt {m : Memory} {lo a : Nat} (hw : wfFrom lo m = true) (h : a < lo) : read m a = resetByte a := by
  induction m generalizing lo with
  | nil => rfl
  | cons kc m ih =>
    obtain ⟨k, c⟩ := kc
    simp only [wfFrom, Bool.and_eq_true, decide_eq_true_eq] at hw
    have hk : k ≠ a := by omega
    simp only [read, hk, if_false]
    exact ih hw.2 (by omega)

theorem read_write_same_from {m : Memory} {lo : Nat} (hw : wfFrom lo m = true) (a : Nat) (b : Byte) :
    read (write m a b) a = b := by
  induction m generalizing lo with
  | nil => exact read_cons_self a b [] rfl
  | cons kc m ih =>
    obtain ⟨k, c⟩ := kc
    have hw' := hw
    simp only [wfFrom, Bool.and_eq_true, decide_eq_true_eq] at hw'
    simp only [write]
    split
    · next hlt =>
      have hk : k ≠ a := by omega
      exact read_cons_self a b _ (by simp only [read, hk, if_false]; exact read_of_lt hw'.2 (by omega))
    · split
      · next hk => exact read_cons_self a b m (read_of_lt hw'.2 (by omega))
      · next hk => simp only [read, Ne.symm hk, if_false]; exact ih hw'.2

/-- A read after a write to the same address gives the byte written (20_memory R52). -/
theorem read_write_same {m : Memory} (hw : wf m = true) (a : Nat) (b : Byte) : read (write m a b) a = b :=
  read_write_same_from hw a b

/-! ### The canonical form -/

theorem wfFrom_mono {m : Memory} {lo lo' : Nat} (h : lo' ≤ lo) (hw : wfFrom lo m = true) : wfFrom lo' m = true := by
  cases m with
  | nil => rfl
  | cons kc m =>
    obtain ⟨k, c⟩ := kc
    simp only [wfFrom, Bool.and_eq_true, decide_eq_true_eq] at hw ⊢
    exact ⟨⟨⟨by omega, hw.1.1.2⟩, hw.1.2⟩, hw.2⟩

theorem cons_wfFrom {m : Memory} {lo a : Nat} (ha : lo ≤ a) (hm : a < 4096) (b : Byte) (hw : wfFrom (a + 1) m = true) :
    wfFrom lo (cons a b m) = true := by
  unfold cons
  split
  · exact wfFrom_mono (by omega) hw
  · next hb => simp [wfFrom, ha, hm, hb, hw]

theorem write_wfFrom {m : Memory} {lo a : Nat} (ha : lo ≤ a) (hm : a < 4096) (b : Byte) (hw : wfFrom lo m = true) :
    wfFrom lo (write m a b) = true := by
  induction m generalizing lo with
  | nil => exact cons_wfFrom ha hm b rfl
  | cons kc m ih =>
    obtain ⟨k, c⟩ := kc
    have hw' := hw
    simp only [wfFrom, Bool.and_eq_true, decide_eq_true_eq] at hw'
    simp only [write]
    split
    · next hlt =>
      refine cons_wfFrom ha hm b ?_
      simp only [wfFrom, Bool.and_eq_true, decide_eq_true_eq]
      exact ⟨⟨⟨by omega, hw'.1.1.2⟩, hw'.1.2⟩, hw'.2⟩
    · split
      · next hk => subst hk; exact cons_wfFrom ha hm b hw'.2
      · next hk =>
        simp only [wfFrom, Bool.and_eq_true, decide_eq_true_eq]
        exact ⟨hw'.1, ih (by omega) hw'.2⟩

/-- A write inside memory keeps the canonical form. -/
theorem write_wf {m : Memory} {a : Nat} (hm : a < 4096) (b : Byte) (hw : wf m = true) : wf (write m a b) = true :=
  write_wfFrom (Nat.zero_le a) hm b hw

theorem writeBytes_wf {bs : List Byte} {m : Memory} {base : Nat} (h : base + bs.length ≤ 4096) (hw : wf m = true) :
    wf (writeBytes m base bs) = true := by
  induction bs generalizing m base with
  | nil => exact hw
  | cons b bs ih =>
    simp only [List.length_cons] at h
    exact ih (by omega) (write_wf (by omega) b hw)

/-! ### Several bytes -/

/-- A write of several bytes leaves every other address alone. -/
theorem read_writeBytes_out {bs : List Byte} {m : Memory} {base a : Nat} (h : a < base ∨ base + bs.length ≤ a) :
    read (writeBytes m base bs) a = read m a := by
  induction bs generalizing m base with
  | nil => rfl
  | cons b bs ih =>
    simp only [List.length_cons] at h
    rw [writeBytes, ih (by omega), read_write_ne (by omega)]

/-- Byte `k` of several bytes written at `base` reads back at `base + k`. -/
theorem read_writeBytes_in {bs : List Byte} {m : Memory} {base k : Nat} (hw : wf m = true)
    (hr : base + bs.length ≤ 4096) (hk : k < bs.length) :
    read (writeBytes m base bs) (base + k) = bs[k] := by
  induction bs generalizing m base k with
  | nil => simp at hk
  | cons b bs ih =>
    simp only [List.length_cons] at hr hk
    cases k with
    | zero =>
      rw [writeBytes, read_writeBytes_out (by omega)]
      exact read_write_same hw base b
    | succ k =>
      have := ih (m := write m base b) (base := base + 1) (k := k) (write_wf (by omega) b hw) (by omega) (by omega)
      rw [writeBytes, show base + (k + 1) = base + 1 + k by omega, this]
      simp

/-! ### Equal memories are equal data -/

theorem ext_from {m m' : Memory} {lo : Nat} (hw : wfFrom lo m = true) (hw' : wfFrom lo m' = true)
    (h : ∀ a, read m a = read m' a) : m = m' := by
  induction m generalizing lo m' with
  | nil =>
    cases m' with
    | nil => rfl
    | cons kc m' =>
      obtain ⟨k, c⟩ := kc
      simp only [wfFrom, Bool.and_eq_true, decide_eq_true_eq, bne_iff_ne] at hw'
      have := h k
      simp only [read, if_true] at this
      exact absurd this.symm hw'.1.2
  | cons kc m ih =>
    obtain ⟨k, c⟩ := kc
    simp only [wfFrom, Bool.and_eq_true, decide_eq_true_eq, bne_iff_ne] at hw
    cases m' with
    | nil =>
      have := h k
      simp only [read, if_true] at this
      exact absurd this hw.1.2
    | cons kc' m' =>
      obtain ⟨k', c'⟩ := kc'
      simp only [wfFrom, Bool.and_eq_true, decide_eq_true_eq, bne_iff_ne] at hw'
      have hk : k = k' := by
        rcases Nat.lt_trichotomy k k' with hlt | heq | hgt
        · have h1 := h k
          have hne : k' ≠ k := by omega
          simp only [read, if_true, hne, if_false] at h1
          rw [read_of_lt hw'.2 (by omega)] at h1
          exact absurd h1 hw.1.2
        · exact heq
        · have h1 := h k'
          have hne : k ≠ k' := by omega
          simp only [read, if_true, hne, if_false] at h1
          rw [read_of_lt hw.2 (by omega)] at h1
          exact absurd h1.symm hw'.1.2
      subst hk
      have hc : c = c' := by simpa [read] using h k
      subst hc
      refine congrArg ((k, c) :: ·) (ih hw.2 hw'.2 fun a => ?_)
      by_cases ha : a < k + 1
      · rw [read_of_lt hw.2 ha, read_of_lt hw'.2 ha]
      · have hne : k ≠ a := by omega
        simpa [read, hne] using h a

end Memory

/-! ### What the range checks say (20_memory R48, R49) -/

theorem readRangeError_none {base len : Nat} : readRangeError base len = none ↔ (len = 0 ∨ base + len ≤ 4096) := by
  simp only [readRangeError, Config.memSize]
  split <;> simp <;> omega

theorem readRangeError_some {base len a : Nat} :
    readRangeError base len = some a ↔ (1 ≤ len ∧ 4096 < base + len ∧ a = max base 4096) := by
  simp only [readRangeError, Config.memSize]
  split
  · next h => simp [h.1, h.2, eq_comm]
  · next h => simp; omega

theorem writeRangeError_none {base len : Nat} :
    writeRangeError base len = none ↔ (0x50 ≤ base ∧ (len = 0 ∨ base + len ≤ 4096)) := by
  simp only [writeRangeError, Config.fontEnd]
  split
  · simp; omega
  · rw [readRangeError_none]; omega

theorem writeRangeError_some {base len a : Nat} :
    writeRangeError base len = some a ↔
      (base < 0x50 ∧ a = base ∨ 0x50 ≤ base ∧ 1 ≤ len ∧ 4096 < base + len ∧ a = max base 4096) := by
  simp only [writeRangeError, Config.fontEnd]
  split
  · simp; omega
  · rw [readRangeError_some]; omega

end Sys2Proof.Machine
end

