-- ==== Sys2Proof/Laws/Ops.lean ====
section
/-! SUPPORT. One lemma for each shared operation that says once everything it can do. -/

namespace Sys2Proof.Machine

/-! ### Range-checked accesses (20_memory R48, R49) -/

/-- A range-checked meaning either reports the address its check found, or goes on with its body. -/
theorem orIllegal_cases {check : Option Nat} {s body t : State} (h : orIllegal check s body = .next t) :
    (∃ a, check = some a ∧ t = s.takeReport (.illegalMemAccess a)) ∨ (check = none ∧ t = body) := by
  cases check with
  | none => exact .inr ⟨rfl, by simpa [orIllegal] using h.symm⟩
  | some a => exact .inl ⟨a, rfl, by simpa [orIllegal, raise] using h.symm⟩

/-- A store at I: the report, or the bytes stored and PC moved on. -/
theorem storeAtI_cases {bs : List Byte} {s t : State} (h : storeAtI bs s = .next t) :
    (∃ a, writeRangeError s.i.toNat bs.length = some a ∧ t = s.takeReport (.illegalMemAccess a)) ∨
      (writeRangeError s.i.toNat bs.length = none ∧ t = (s.storeBytes s.i.toNat bs).advance) :=
  orIllegal_cases h

/-! ### Register lists (R155, R156) -/

theorem loadRegs_getElem (m : Memory) (base n : Nat) (v : Vector Byte 16) (k : Nat) (hk : k < 16) :
    (loadRegs m base n v)[k] = if k < n then Memory.read m (base + k) else v[k] := by
  induction n with
  | zero => simp [loadRegs]
  | succ n ih =>
    simp only [loadRegs, Vector.getElem_setIfInBounds, ih]
    split
    · next h => subst h; simp
    · next h =>
      have : (k < n + 1) ↔ k < n := by omega
      simp [this]

theorem firstRegs_length (s : State) {n : Nat} (h : n ≤ 16) : (s.firstRegs n).length = n := by
  simp [State.firstRegs, h]

theorem firstRegs_getElem (s : State) {n k : Nat} (h : k < (s.firstRegs n).length) (h' : k < 16) :
    (s.firstRegs n)[k] = s.v[k] := by
  simp [State.firstRegs]

theorem regCount_le (x : Nibble) : regCount x ≤ 16 := by
  have := x.isLt
  simp only [regCount]; omega

theorem bcdDigits_length (v : Byte) : (bcdDigits v).length = 3 := rfl

/-- Digits read back as the numbers they are (R154). -/
theorem bcdDigits_toNat (v : Byte) :
    (bcdDigits v).map BitVec.toNat = [v.toNat / 100, v.toNat / 10 % 10, v.toNat % 10] := by
  have := v.isLt
  simp only [bcdDigits, List.map_cons, List.map_nil, BitVec.toNat_ofNat, List.cons.injEq, and_true]
  omega

/-! ### The call stack (10_state R20) -/

theorem push_full {s : State} (w : Word) (h : s.sp.val = 16) : s.push w = none := by simp [State.push, h]

theorem push_next {s : State} (w : Word) (h : s.sp.val < 16) :
    s.push w = some { s with stack := s.stack.set s.sp.val w h, sp := ⟨s.sp.val + 1, by omega⟩ } := by
  simp [State.push, h]

theorem pop_empty {s : State} (h : s.sp.val = 0) : s.pop = none := by
  unfold State.pop
  split
  · rfl
  · next k hk heq => rw [heq] at h; simp at h

theorem pop_next {s : State} {k : Nat} (h : s.sp.val = k + 1) :
    s.pop = some (s.stack[k]'(by have := s.sp.isLt; omega), { s with sp := ⟨k, by have := s.sp.isLt; omega⟩ }) := by
  unfold State.pop
  split
  · next heq => rw [heq] at h; simp at h
  · next j hj heq =>
    rw [heq] at h
    obtain rfl : j = k := by simpa using h
    rfl

/-- A pop, read backwards. -/
theorem pop_some {s s' : State} {w : Word} (h : s.pop = some (w, s')) :
    ∃ k : Fin 16, s.sp.val = k.val + 1 ∧ w = s.stack[k] ∧ s' = { s with sp := k.castSucc } := by
  have hsp := s.sp.isLt
  obtain hn | ⟨k, hn⟩ : s.sp.val = 0 ∨ ∃ k, s.sp.val = k + 1 := by cases s.sp.val <;> simp
  · rw [pop_empty hn] at h; cases h
  · rw [pop_next hn, Option.some.injEq, Prod.mk.injEq] at h
    exact ⟨⟨k, by omega⟩, hn, h.1.symm, h.2.symm⟩

/-- A push, read backwards. -/
theorem push_some {s s' : State} {w : Word} (h : s.push w = some s') :
    ∃ k : Fin 16, s.sp.val = k.val ∧ s' = { s with stack := s.stack.set k.val w k.isLt, sp := k.succ } := by
  have hsp := s.sp.isLt
  by_cases hn : s.sp.val < 16
  · rw [push_next w hn, Option.some.injEq] at h
    exact ⟨⟨s.sp.val, hn⟩, rfl, h.symm⟩
  · rw [push_full w (by omega)] at h; cases h

/-- What was pushed is popped, and the rest of the state is as before the push but for the dead entry. -/
theorem pop_push {s s' : State} {w : Word} (h : s.push w = some s') :
    s'.pop = some (w, { s with stack := s'.stack }) := by
  have hsp := s.sp.isLt
  by_cases hf : s.sp.val < 16
  · rw [push_next w hf] at h
    obtain rfl := Option.some.inj h
    rw [pop_next (k := s.sp.val) rfl]
    simp
  · rw [push_full w (by omega)] at h
    cases h

/-! ### Keys (44_timers_and_keypad R191, R192) -/

theorem keyIndex_none {v : Byte} : keyIndex v = none ↔ 15 < v.toNat := by
  simp only [keyIndex]
  split <;> simp_all

theorem keyIndex_some {v : Byte} {k : Nibble} : keyIndex v = some k ↔ (v.toNat = k.toNat) := by
  have hk := k.isLt
  simp only [keyIndex]
  split
  · simp; omega
  · rw [Option.some.injEq, ← BitVec.toNat_inj, BitVec.toNat_setWidth]; omega

/-- A skip on a key: the report, or a skip decided by the key's state. -/
theorem skipOnKey_cases {v : Byte} {p : Bool} {s t : State} (h : skipOnKey v p s = .next t) :
    (keyIndex v = none ∧ t = s.takeReport (.keyIndexOutOfRange v)) ∨
      (∃ k, keyIndex v = some k ∧ t = s.skipIf (s.getKey k == p)) := by
  unfold skipOnKey at h
  cases hk : keyIndex v with
  | none => rw [hk] at h; exact .inl ⟨rfl, by simpa [raise] using h.symm⟩
  | some k => rw [hk] at h; exact .inr ⟨k, rfl, by simpa using h.symm⟩

/-! ### Fetch (30_encoding R75) -/

/-- A cycle is idle because the machine waits, PC is out of range or the opcode is unknown; else it executes the
instruction the opcode at PC selects. -/
theorem fetchFrom_cases (s : State) :
    (s.mode ≠ .running ∧ fetchFrom s = .idle s) ∨
    (s.mode = .running ∧ s.pcFetchable = false ∧ fetchFrom s = .idle (s.takeReport (.pcOutOfRange s.pc))) ∨
    (s.mode = .running ∧ s.pcFetchable = true ∧ (∃ e, decode s.opcode = .error e) ∧
      fetchFrom s = .idle (s.takeReport (.unknownOpcode s.opcode))) ∨
    (∃ i, s.mode = .running ∧ s.pcFetchable = true ∧ decode s.opcode = .ok i ∧ fetchFrom s = .execute i s) := by
  unfold fetchFrom
  cases hm : s.mode with
  | waitingForKey x => exact .inl ⟨by simp, rfl⟩
  | running =>
    cases hp : s.pcFetchable with
    | false => exact .inr (.inl ⟨rfl, rfl, by simp⟩)
    | true =>
      cases hd : decode s.opcode with
      | error e => exact .inr (.inr (.inl ⟨rfl, rfl, ⟨e, rfl⟩, by simp [select, hd]⟩))
      | ok i => exact .inr (.inr (.inr ⟨i, rfl, rfl, rfl, by simp [select, hd]⟩))

/-- A step whose cycle is idle answers the idle state. -/
theorem step_of_idle {s t : State} (h : fetchFrom s.clearReport = .idle t) : step s = .next t := by
  simp [step, fetchDecode, h]

/-- A step whose cycle executes an instruction answers what the instruction answers. -/
theorem step_of_execute {s t : State} {i : Instr} (h : fetchFrom s.clearReport = .execute i t) : step s = exec i t := by
  simp [step, fetchDecode, h]

@[simp] theorem clearReport_opcode (s : State) : s.clearReport.opcode = s.opcode := rfl

@[simp] theorem clearReport_pcFetchable (s : State) : s.clearReport.pcFetchable = s.pcFetchable := rfl

theorem pcFetchable_iff (s : State) : s.pcFetchable = true ↔ s.pc.toNat ≤ 4094 := by simp [State.pcFetchable]

/-! ### The transactions (60_exceptions R224, R226) -/

theorem tick_toNat (t : Byte) : (tick t).toNat = t.toNat - 1 := by
  have := t.isLt
  unfold tick
  split
  · next h => subst h; rfl
  · next h =>
    have : t.toNat ≠ 0 := fun h0 => h (BitVec.eq_of_toNat_eq (by simpa using h0))
    rw [BitVec.toNat_sub, show (1 : Byte).toNat = 1 from rfl]; omega

/-- `setKey` writes the latch slot; in WaitingForKey mode a press edge also completes the FX0A. -/
theorem setKey_cases (k : Nibble) (p : Bool) (s : State) :
    (∃ x, s.mode = .waitingForKey x ∧ p = true ∧ s.getKey k = false ∧
      setKey k p s = (s.setKeySlot k p).resolveKey x k) ∨
    ((s.mode = .running ∨ p = false ∨ s.getKey k = true) ∧ setKey k p s = s.setKeySlot k p) := by
  unfold setKey
  cases hm : s.mode with
  | running => exact .inr ⟨.inl rfl, rfl⟩
  | waitingForKey x =>
    cases p <;> cases hk : s.getKey k <;> simp [qualifying]

end Sys2Proof.Machine
end

