-- ==== Sys2Proof/Laws/Exec.lean ====
section
/-! SUPPORT. Said once, what an instruction can do: it raises the report its conditions call for and takes that
report's recovery, or it has its own effect. Claims about all instructions are a case split over `effect` and one
`takeReport`. -/

namespace Sys2Proof.Machine

/-- The report an instruction raises in a state, if any. -/
def reportOf (s : State) : Instr → Option Report
  | .ret => if s.sp.val = 0 then some .stackUnderflow else none
  | .call _ => if s.sp.val = 16 then some .stackOverflow else none
  | .drw _ _ n => (readRangeError s.i.toNat n.toNat).map .illegalMemAccess
  | .ldBVx _ => (writeRangeError s.i.toNat 3).map .illegalMemAccess
  | .ldMemVx x => (writeRangeError s.i.toNat (regCount x)).map .illegalMemAccess
  | .ldVxMem x => (readRangeError s.i.toNat (regCount x)).map .illegalMemAccess
  | .skpVx x | .sknpVx x => if 15 < (s.getV x).toNat then some (.keyIndexOutOfRange (s.getV x)) else none
  | _ => none

/-- The key a register's value names, read from its low nibble (used where the value is at most 15). -/
def keyOf (s : State) (x : Nibble) : Nibble := (s.getV x).setWidth 4

/-- The state after a return from a non-empty stack. -/
def returned (s : State) : State :=
  match s.pop with
  | some (w, s') => s'.setPc w
  | none => s

/-- The state after a call with room on the stack. -/
def called (s : State) (nnn : Addr12) : State :=
  match s.push s.next with
  | some s' => s'.setPc (addrOfNnn nnn)
  | none => s

/-- An instruction's own effect, where it raises nothing. -/
def effect (s : State) : Instr → State
  | .cls => { s with fb := clearScreen, draw := true }.advance
  | .ret => returned s
  | .jp nnn => s.setPc (addrOfNnn nnn)
  | .call nnn => called s nnn
  | .seVxNn x nn => s.skipIf (s.getV x == nn)
  | .sneVxNn x nn => s.skipIf (s.getV x != nn)
  | .seVxVy x y _ => s.skipIf (s.getV x == s.getV y)
  | .sneVxVy x y _ => s.skipIf (s.getV x != s.getV y)
  | .ldVxNn x nn => (s.setV x nn).advance
  | .addVxNn x nn => (s.setV x (s.getV x + nn)).advance
  | .ldVxVy x y => (s.setV x (s.getV y)).advance
  | .orVxVy x y => (s.setV x (s.getV x ||| s.getV y)).advance
  | .andVxVy x y => (s.setV x (s.getV x &&& s.getV y)).advance
  | .xorVxVy x y => (s.setV x (s.getV x ^^^ s.getV y)).advance
  | .addVxVy x y =>
    ((s.setV x (s.getV x + s.getV y)).setV flagReg (flagByte (carry (s.getV x) (s.getV y)))).advance
  | .subVxVy x y =>
    ((s.setV x (s.getV x - s.getV y)).setV flagReg (flagByte (noBorrow (s.getV x) (s.getV y)))).advance
  | .shrVxVy x y => ((s.setV x (s.getV y >>> 1)).setV flagReg (flagByte (outRight (s.getV y)))).advance
  | .subnVxVy x y =>
    ((s.setV x (s.getV y - s.getV x)).setV flagReg (flagByte (noBorrow (s.getV y) (s.getV x)))).advance
  | .shlVxVy x y => ((s.setV x (s.getV y <<< 1)).setV flagReg (flagByte (outLeft (s.getV y)))).advance
  | .ldINnn nnn => { s with i := addrOfNnn nnn }.advance
  | .jpV0Nnn nnn => s.setPc (addrOfNnn nnn + wordOfByte (s.getV 0))
  | .rndVxNn x nn => (s.drawRandom.setV x (s.rnd &&& nn)).advance
  | .drw x y n =>
    ({ s with fb := (s.drawSprite x y n).fb, draw := true }.setV flagReg
      (flagByte (s.drawSprite x y n).collision)).advance
  | .skpVx x => s.skipIf (s.getKey (keyOf s x) == true)
  | .sknpVx x => s.skipIf (s.getKey (keyOf s x) == false)
  | .ldVxDt x => (s.setV x s.dt).advance
  | .ldVxK x => { s with mode := .waitingForKey x }
  | .ldDtVx x => { s with dt := s.getV x }.advance
  | .ldStVx x => { s with st := s.getV x }.advance
  | .addIVx x => { s with i := s.i + wordOfByte (s.getV x) }.advance
  | .ldFVx x => { s with i := glyphAddr (s.getV x) }.advance
  | .ldBVx x => (s.storeBytes s.i.toNat (bcdDigits (s.getV x))).advance
  | .ldMemVx x => (s.storeBytes s.i.toNat (s.firstRegs (regCount x))).advance
  | .ldVxMem x => { s with v := loadRegs s.mem s.i.toNat (regCount x) s.v }.advance

/-- The state after an instruction: a report's recovery, or the effect. -/
def after (s : State) (i : Instr) : State :=
  match reportOf s i with
  | some r => s.takeReport r
  | none => effect s i

/-! ### Returns and calls, field by field -/

/-- A return moves SP and PC only: with an entry on the stack, to that entry. -/
theorem returned_eq {s : State} (k : Fin 16) (h : s.sp.val = k.val + 1) :
    returned s = { s with sp := k.castSucc, pc := s.stack[k] } := by
  simp only [returned, pop_next h]; rfl

/-- A call moves SP, PC and one stack entry only. -/
theorem called_eq {s : State} (nnn : Addr12) (k : Fin 16) (h : s.sp.val = k.val) :
    called s nnn = { s with stack := s.stack.set k.val s.next k.isLt, sp := k.succ, pc := addrOfNnn nnn } := by
  have hk : s.sp.val < 16 := by omega
  simp only [called, push_next s.next hk, State.setPc, h]; rfl

/-- A return changes no field but SP and PC. -/
theorem returned_frame (s : State) : returned s = { s with sp := (returned s).sp, pc := (returned s).pc } := by
  unfold returned
  cases hp : s.pop with
  | none => rfl
  | some p => obtain ⟨k, -, -, h⟩ := pop_some (w := p.1) (s' := p.2) hp; simp only [h]; rfl

/-- A call changes no field but the stack, SP and PC. -/
theorem called_frame (s : State) (nnn : Addr12) :
    called s nnn = { s with
      stack := (called s nnn).stack, sp := (called s nnn).sp, pc := (called s nnn).pc } := by
  unfold called
  cases hp : s.push s.next with
  | none => rfl
  | some s' => obtain ⟨k, -, h⟩ := push_some hp; simp only [h]; rfl

@[simp] theorem returned_mem (s : State) : (returned s).mem = s.mem := by rw [returned_frame]
@[simp] theorem returned_v (s : State) : (returned s).v = s.v := by rw [returned_frame]
@[simp] theorem returned_i (s : State) : (returned s).i = s.i := by rw [returned_frame]
@[simp] theorem returned_stack (s : State) : (returned s).stack = s.stack := by rw [returned_frame]
@[simp] theorem returned_dt (s : State) : (returned s).dt = s.dt := by rw [returned_frame]
@[simp] theorem returned_st (s : State) : (returned s).st = s.st := by rw [returned_frame]
@[simp] theorem returned_fb (s : State) : (returned s).fb = s.fb := by rw [returned_frame]
@[simp] theorem returned_key (s : State) : (returned s).key = s.key := by rw [returned_frame]
@[simp] theorem returned_mode (s : State) : (returned s).mode = s.mode := by rw [returned_frame]
@[simp] theorem returned_draw (s : State) : (returned s).draw = s.draw := by rw [returned_frame]
@[simp] theorem returned_report (s : State) : (returned s).report = s.report := by rw [returned_frame]
@[simp] theorem returned_rndIn (s : State) : (returned s).rndIn = s.rndIn := by rw [returned_frame]
@[simp] theorem returned_rndCount (s : State) : (returned s).rndCount = s.rndCount := by rw [returned_frame]
@[simp] theorem called_mem (s : State) (nnn : Addr12) : (called s nnn).mem = s.mem := by rw [called_frame]
@[simp] theorem called_v (s : State) (nnn : Addr12) : (called s nnn).v = s.v := by rw [called_frame]
@[simp] theorem called_i (s : State) (nnn : Addr12) : (called s nnn).i = s.i := by rw [called_frame]
@[simp] theorem called_dt (s : State) (nnn : Addr12) : (called s nnn).dt = s.dt := by rw [called_frame]
@[simp] theorem called_st (s : State) (nnn : Addr12) : (called s nnn).st = s.st := by rw [called_frame]
@[simp] theorem called_fb (s : State) (nnn : Addr12) : (called s nnn).fb = s.fb := by rw [called_frame]
@[simp] theorem called_key (s : State) (nnn : Addr12) : (called s nnn).key = s.key := by rw [called_frame]
@[simp] theorem called_mode (s : State) (nnn : Addr12) : (called s nnn).mode = s.mode := by rw [called_frame]
@[simp] theorem called_draw (s : State) (nnn : Addr12) : (called s nnn).draw = s.draw := by rw [called_frame]
@[simp] theorem called_report (s : State) (nnn : Addr12) : (called s nnn).report = s.report := by rw [called_frame]
@[simp] theorem called_rndIn (s : State) (nnn : Addr12) : (called s nnn).rndIn = s.rndIn := by rw [called_frame]
@[simp] theorem called_rndCount (s : State) (nnn : Addr12) : (called s nnn).rndCount = s.rndCount := by rw [called_frame]

@[simp] theorem returned_getV (s : State) (r : Nibble) : (returned s).getV r = s.getV r := by rw [returned_frame]; rfl
@[simp] theorem returned_readMem (s : State) (a : Nat) : (returned s).readMem a = s.readMem a := by
  rw [returned_frame]; rfl
@[simp] theorem called_getV (s : State) (nnn : Addr12) (r : Nibble) : (called s nnn).getV r = s.getV r := by
  rw [called_frame]; rfl
@[simp] theorem called_readMem (s : State) (nnn : Addr12) (a : Nat) : (called s nnn).readMem a = s.readMem a := by
  rw [called_frame]; rfl

/-! ### What every instruction answers -/

theorem orIllegal_eq (check : Option Nat) (s body : State) :
    orIllegal check s body =
      .next (match check.map Report.illegalMemAccess with | some r => s.takeReport r | none => body) := by
  cases check <;> rfl

/-- What every instruction answers. -/
theorem exec_eq_after (i : Instr) (s : State) : exec i s = .next (after s i) := by
  have hsp := s.sp.isLt
  cases i with
  | ret =>
    simp only [exec, execRet, after, reportOf, effect]
    cases hn : s.sp.val with
    | zero => simp [pop_empty hn, raise]
    | succ k => simp [returned, pop_next hn]
  | call nnn =>
    simp only [exec, execCall, after, reportOf, effect]
    by_cases hn : s.sp.val = 16
    · simp [push_full s.next hn, hn, raise]
    · simp [called, push_next s.next (by omega : s.sp.val < 16), hn]
  | skpVx x =>
    simp only [exec, execSkpVx, skipOnKey, keyIndex, after, reportOf, effect, keyOf]
    by_cases hn : 15 < (s.getV x).toNat <;> simp [hn, raise]
  | sknpVx x =>
    simp only [exec, execSknpVx, skipOnKey, keyIndex, after, reportOf, effect, keyOf]
    by_cases hn : 15 < (s.getV x).toNat <;> simp [hn, raise]
  | drw x y n => exact orIllegal_eq _ _ _
  | ldBVx x => exact orIllegal_eq _ _ _
  | ldMemVx x =>
    refine (orIllegal_eq _ _ _).trans ?_
    rw [firstRegs_length s (regCount_le x)]; rfl
  | ldVxMem x => exact orIllegal_eq _ _ _
  | _ => rfl

/-- The two things an instruction can do. -/
theorem exec_cases {i : Instr} {s t : State} (h : exec i s = .next t) :
    (∃ r, reportOf s i = some r ∧ t = s.takeReport r) ∨ (reportOf s i = none ∧ t = effect s i) := by
  rw [exec_eq_after] at h
  injection h with h
  subst h
  unfold after
  cases hr : reportOf s i with
  | some r => exact .inl ⟨r, rfl, rfl⟩
  | none => exact .inr ⟨rfl, rfl⟩

/-- An instruction's own effect leaves the report as it was. -/
theorem effect_report (s : State) (i : Instr) : (effect s i).report = s.report := by cases i <;> simp [effect]

/-- An instruction ends in a report exactly where its conditions call for one. -/
theorem raises_eq (i : Instr) (s : State) : raises i s = (reportOf s i).isSome := by
  unfold raises
  rw [exec_eq_after]
  have hc : reportOf s.clearReport i = reportOf s i := by cases i <;> rfl
  simp only [after, hc]
  cases hq : reportOf s i with
  | some r => simp
  | none => simp [effect_report]

/-- An instruction raises no PcOutOfRange and no UnknownOpcode. -/
theorem reportOf_kind {s : State} {i : Instr} {r : Report} (h : reportOf s i = some r) :
    (∀ p, r ≠ .pcOutOfRange p) ∧ ∀ op, r ≠ .unknownOpcode op := by
  cases i <;> simp only [reportOf, Option.map_eq_some_iff, reduceCtorEq] at h <;>
    first
    | (split at h <;> simp_all; done)
    | (obtain ⟨a, -, rfl⟩ := h; exact ⟨by simp, by simp⟩)
    | (split at h
       · cases h; exact ⟨by simp, by simp⟩
       · cases h)

/-- A report an instruction raises moves PC on by 2. -/
theorem recoveryPc_of_reportOf {s : State} {i : Instr} {r : Report} (h : reportOf s i = some r) (pc : Word) :
    r.recoveryPc pc = pc + 2 := by
  have := (reportOf_kind h).1
  cases r <;> simp_all [Report.recoveryPc]

/-- What a step can do: stay where it is while it waits, raise one of the two reports of the cycle, or run the
instruction at PC. -/
theorem step_cases {s t : State} (h : step s = .next t) :
    (s.mode ≠ .running ∧ t = s.clearReport) ∨
    (s.mode = .running ∧ 4094 < s.pc.toNat ∧ t = s.clearReport.takeReport (.pcOutOfRange s.pc)) ∨
    (s.mode = .running ∧ s.pc.toNat ≤ 4094 ∧ (∃ e, decode s.opcode = .error e) ∧
      t = s.clearReport.takeReport (.unknownOpcode s.opcode)) ∨
    (∃ i, s.mode = .running ∧ s.pc.toNat ≤ 4094 ∧ decode s.opcode = .ok i ∧ t = after s.clearReport i) := by
  have hpc := pcFetchable_iff s
  rcases fetchFrom_cases s.clearReport with ⟨hm, hf⟩ | ⟨hm, hp, hf⟩ | ⟨hm, hp, hd, hf⟩ | ⟨i, hm, hp, hd, hf⟩
  · rw [step_of_idle hf] at h; injection h with h; subst h; exact .inl ⟨hm, rfl⟩
  · rw [step_of_idle hf] at h; injection h with h; subst h
    rw [clearReport_pcFetchable] at hp
    refine .inr (.inl ⟨hm, ?_, rfl⟩)
    by_contra hc
    rw [hpc.2 (by omega)] at hp
    cases hp
  · rw [step_of_idle hf] at h; injection h with h; subst h
    exact .inr (.inr (.inl ⟨hm, hpc.1 hp, hd, rfl⟩))
  · rw [step_of_execute hf, exec_eq_after] at h; injection h with h; subst h
    exact .inr (.inr (.inr ⟨i, hm, hpc.1 hp, hd, rfl⟩))

end Sys2Proof.Machine
end

