-- ==== Sys2Proof/Laws/PerInstr.lean ====
section
/-! SUPPORT. The per-instruction families of LAWS.json. Encoding: the opcode of an instruction selects the instruction's
row of the opcode map (spec/30_encoding.md R67), and that row is one of the 34. -/

namespace Sys2Proof.Laws.Encoding

/-- The instruction's opcode selects its own row of R67, which stands in the table. -/
def Statement (i : Instr) : Prop := i.row ∈ opcodeTable ∧ i.row.selects (encode i) = true

theorem selects_class (bits : Word) {op : Word} (h : encodeNNN (classOf op) 0 = bits) :
    OpcodeRow.selects ⟨0xF000, bits⟩ op = true :=
  beq_iff_eq.2 ((and_classMask op).trans h)

theorem selects_alu (bits : Word) {op : Word} (h : encodeNibbles (classOf op) 0 0 (nOf op) = bits) :
    OpcodeRow.selects ⟨0xF00F, bits⟩ op = true :=
  beq_iff_eq.2 ((and_aluMask op).trans h)

theorem selects_selector (bits : Word) {op : Word} (h : encodeXNN (classOf op) 0 (nnOf op) = bits) :
    OpcodeRow.selects ⟨0xF0FF, bits⟩ op = true :=
  beq_iff_eq.2 ((and_selectorMask op).trans h)

theorem cls : Statement (.cls) :=
  ⟨by decide, by decide⟩

theorem ret : Statement (.ret) :=
  ⟨by decide, by decide⟩

theorem jp (nnn : Addr12) : Statement (.jp nnn) :=
  ⟨by simp [Instr.row, opcodeTable], selects_class _ (by rw [encode, (fields_encodeNNN _ _).1]; decide)⟩

theorem call (nnn : Addr12) : Statement (.call nnn) :=
  ⟨by simp [Instr.row, opcodeTable], selects_class _ (by rw [encode, (fields_encodeNNN _ _).1]; decide)⟩

theorem seVxNn (x : Nibble) (nn : Byte) : Statement (.seVxNn x nn) :=
  ⟨by simp [Instr.row, opcodeTable], selects_class _ (by rw [encode, (fields_encodeXNN _ _ _).1]; decide)⟩

theorem sneVxNn (x : Nibble) (nn : Byte) : Statement (.sneVxNn x nn) :=
  ⟨by simp [Instr.row, opcodeTable], selects_class _ (by rw [encode, (fields_encodeXNN _ _ _).1]; decide)⟩

theorem seVxVy (x y n : Nibble) : Statement (.seVxVy x y n) :=
  ⟨by simp [Instr.row, opcodeTable], selects_class _ (by rw [encode, (fields_encodeNibbles _ _ _ _).1]; decide)⟩

theorem ldVxNn (x : Nibble) (nn : Byte) : Statement (.ldVxNn x nn) :=
  ⟨by simp [Instr.row, opcodeTable], selects_class _ (by rw [encode, (fields_encodeXNN _ _ _).1]; decide)⟩

theorem addVxNn (x : Nibble) (nn : Byte) : Statement (.addVxNn x nn) :=
  ⟨by simp [Instr.row, opcodeTable], selects_class _ (by rw [encode, (fields_encodeXNN _ _ _).1]; decide)⟩

theorem ldVxVy (x y : Nibble) : Statement (.ldVxVy x y) :=
  ⟨by simp [Instr.row, opcodeTable], selects_alu _ (by rw [encode, (fields_encodeNibbles _ _ _ _).1, (fields_encodeNibbles _ _ _ _).2.2.2]; decide)⟩

theorem orVxVy (x y : Nibble) : Statement (.orVxVy x y) :=
  ⟨by simp [Instr.row, opcodeTable], selects_alu _ (by rw [encode, (fields_encodeNibbles _ _ _ _).1, (fields_encodeNibbles _ _ _ _).2.2.2]; decide)⟩

theorem andVxVy (x y : Nibble) : Statement (.andVxVy x y) :=
  ⟨by simp [Instr.row, opcodeTable], selects_alu _ (by rw [encode, (fields_encodeNibbles _ _ _ _).1, (fields_encodeNibbles _ _ _ _).2.2.2]; decide)⟩

theorem xorVxVy (x y : Nibble) : Statement (.xorVxVy x y) :=
  ⟨by simp [Instr.row, opcodeTable], selects_alu _ (by rw [encode, (fields_encodeNibbles _ _ _ _).1, (fields_encodeNibbles _ _ _ _).2.2.2]; decide)⟩

theorem addVxVy (x y : Nibble) : Statement (.addVxVy x y) :=
  ⟨by simp [Instr.row, opcodeTable], selects_alu _ (by rw [encode, (fields_encodeNibbles _ _ _ _).1, (fields_encodeNibbles _ _ _ _).2.2.2]; decide)⟩

theorem subVxVy (x y : Nibble) : Statement (.subVxVy x y) :=
  ⟨by simp [Instr.row, opcodeTable], selects_alu _ (by rw [encode, (fields_encodeNibbles _ _ _ _).1, (fields_encodeNibbles _ _ _ _).2.2.2]; decide)⟩

theorem shrVxVy (x y : Nibble) : Statement (.shrVxVy x y) :=
  ⟨by simp [Instr.row, opcodeTable], selects_alu _ (by rw [encode, (fields_encodeNibbles _ _ _ _).1, (fields_encodeNibbles _ _ _ _).2.2.2]; decide)⟩

theorem subnVxVy (x y : Nibble) : Statement (.subnVxVy x y) :=
  ⟨by simp [Instr.row, opcodeTable], selects_alu _ (by rw [encode, (fields_encodeNibbles _ _ _ _).1, (fields_encodeNibbles _ _ _ _).2.2.2]; decide)⟩

theorem shlVxVy (x y : Nibble) : Statement (.shlVxVy x y) :=
  ⟨by simp [Instr.row, opcodeTable], selects_alu _ (by rw [encode, (fields_encodeNibbles _ _ _ _).1, (fields_encodeNibbles _ _ _ _).2.2.2]; decide)⟩

theorem sneVxVy (x y n : Nibble) : Statement (.sneVxVy x y n) :=
  ⟨by simp [Instr.row, opcodeTable], selects_class _ (by rw [encode, (fields_encodeNibbles _ _ _ _).1]; decide)⟩

theorem ldINnn (nnn : Addr12) : Statement (.ldINnn nnn) :=
  ⟨by simp [Instr.row, opcodeTable], selects_class _ (by rw [encode, (fields_encodeNNN _ _).1]; decide)⟩

theorem jpV0Nnn (nnn : Addr12) : Statement (.jpV0Nnn nnn) :=
  ⟨by simp [Instr.row, opcodeTable], selects_class _ (by rw [encode, (fields_encodeNNN _ _).1]; decide)⟩

theorem rndVxNn (x : Nibble) (nn : Byte) : Statement (.rndVxNn x nn) :=
  ⟨by simp [Instr.row, opcodeTable], selects_class _ (by rw [encode, (fields_encodeXNN _ _ _).1]; decide)⟩

theorem drw (x y n : Nibble) : Statement (.drw x y n) :=
  ⟨by simp [Instr.row, opcodeTable], selects_class _ (by rw [encode, (fields_encodeNibbles _ _ _ _).1]; decide)⟩

theorem skpVx (x : Nibble) : Statement (.skpVx x) :=
  ⟨by simp [Instr.row, opcodeTable], selects_selector _ (by rw [encode, (fields_encodeXNN _ _ _).1, (fields_encodeXNN _ _ _).2.2]; decide)⟩

theorem sknpVx (x : Nibble) : Statement (.sknpVx x) :=
  ⟨by simp [Instr.row, opcodeTable], selects_selector _ (by rw [encode, (fields_encodeXNN _ _ _).1, (fields_encodeXNN _ _ _).2.2]; decide)⟩

theorem ldVxDt (x : Nibble) : Statement (.ldVxDt x) :=
  ⟨by simp [Instr.row, opcodeTable], selects_selector _ (by rw [encode, (fields_encodeXNN _ _ _).1, (fields_encodeXNN _ _ _).2.2]; decide)⟩

theorem ldVxK (x : Nibble) : Statement (.ldVxK x) :=
  ⟨by simp [Instr.row, opcodeTable], selects_selector _ (by rw [encode, (fields_encodeXNN _ _ _).1, (fields_encodeXNN _ _ _).2.2]; decide)⟩

theorem ldDtVx (x : Nibble) : Statement (.ldDtVx x) :=
  ⟨by simp [Instr.row, opcodeTable], selects_selector _ (by rw [encode, (fields_encodeXNN _ _ _).1, (fields_encodeXNN _ _ _).2.2]; decide)⟩

theorem ldStVx (x : Nibble) : Statement (.ldStVx x) :=
  ⟨by simp [Instr.row, opcodeTable], selects_selector _ (by rw [encode, (fields_encodeXNN _ _ _).1, (fields_encodeXNN _ _ _).2.2]; decide)⟩

theorem addIVx (x : Nibble) : Statement (.addIVx x) :=
  ⟨by simp [Instr.row, opcodeTable], selects_selector _ (by rw [encode, (fields_encodeXNN _ _ _).1, (fields_encodeXNN _ _ _).2.2]; decide)⟩

theorem ldFVx (x : Nibble) : Statement (.ldFVx x) :=
  ⟨by simp [Instr.row, opcodeTable], selects_selector _ (by rw [encode, (fields_encodeXNN _ _ _).1, (fields_encodeXNN _ _ _).2.2]; decide)⟩

theorem ldBVx (x : Nibble) : Statement (.ldBVx x) :=
  ⟨by simp [Instr.row, opcodeTable], selects_selector _ (by rw [encode, (fields_encodeXNN _ _ _).1, (fields_encodeXNN _ _ _).2.2]; decide)⟩

theorem ldMemVx (x : Nibble) : Statement (.ldMemVx x) :=
  ⟨by simp [Instr.row, opcodeTable], selects_selector _ (by rw [encode, (fields_encodeXNN _ _ _).1, (fields_encodeXNN _ _ _).2.2]; decide)⟩

theorem ldVxMem (x : Nibble) : Statement (.ldVxMem x) :=
  ⟨by simp [Instr.row, opcodeTable], selects_selector _ (by rw [encode, (fields_encodeXNN _ _ _).1, (fields_encodeXNN _ _ _).2.2]; decide)⟩

end Sys2Proof.Laws.Encoding
end

