-- ==== Sys2Proof/Tests/Slice0.lean ====
section
/-! SUPPORT. The model's own tests. An expected value is the spec's: the vector of spec/95_test_vectors.md named in the
docstring, or a row of spec/30_encoding.md R67 with its fields written out. At the end, the witnesses: for each
obligation with hypotheses a concrete state and operands that meet them. -/

namespace Sys2Proof.Tests
open Sys2Proof Sys2Proof.Machine

-- One test after the other: many kernel evaluations at once would each take a thread's stack.
set_option Elab.async false

/-! ### Helpers -/

/-- The reset state with an opcode where the next step fetches, 0x200. -/
def start (op : Nat) : State := State.reset.withFetchWord 16 op

/-- Registers set, by number. -/
def regs (l : List (Nibble × Byte)) (s : State) : State := l.foldl (fun s p => s.setV p.1 p.2) s

/-- Bytes set from an address on. -/
def bytes (a : Nat) (bs : List Byte) (s : State) : State := s.storeBytes a bs

/-- Pixels set. -/
def pixels (l : List (Nat × Nat)) (s : State) : State := { s with fb := l.foldl (fun fb p => togglePixel fb p.1 p.2) s.fb }

/-- A step answers a next state with this PC and this report, that passes a check. -/
def steps (s : State) (pc : Word) (report : Option Report) (check : State → Bool) : Bool :=
  match step s with
  | .next t => t.pc == pc && t.report == report && check t
  | .fault _ => false
  | .refused _ => false

/-- The framebuffer is just these pixels. -/
def shows (l : List (Nat × Nat)) (t : State) : Bool :=
  decide (t.fb = l.foldl (fun fb p => togglePixel fb p.1 p.2) clearScreen)

/-! ### Well-formedness (30_encoding R68) -/

theorem test_wellFormed_refuses_5XYN : (Instr.seVxVy 1 2 7).wellFormed = false := by decide +kernel
theorem test_wellFormed_refuses_9XYN : (Instr.sneVxVy 1 2 0xF).wellFormed = false := by decide +kernel
theorem test_wellFormed_accepts : (Instr.seVxVy 1 2 0).wellFormed = true ∧ (Instr.drw 1 2 0).wellFormed = true := by decide +kernel

/-! ### Decoding: a word of every constructor, from its row of R67 -/

theorem test_decode_control :
    decode 0x00E0 = .ok .cls ∧ decode 0x00EE = .ok .ret ∧ decode 0x1ABC = .ok (.jp 0xABC) ∧
    decode 0x2ABC = .ok (.call 0xABC) ∧ decode 0x3433 = .ok (.seVxNn 4 0x33) ∧ decode 0x4433 = .ok (.sneVxNn 4 0x33) ∧
    decode 0x5120 = .ok (.seVxVy 1 2 0) ∧ decode 0x9120 = .ok (.sneVxVy 1 2 0) ∧ decode 0xB300 = .ok (.jpV0Nnn 0x300) := by decide +kernel

theorem test_decode_alu :
    decode 0x6FAB = .ok (.ldVxNn 0xF 0xAB) ∧ decode 0x71FF = .ok (.addVxNn 1 0xFF) ∧ decode 0x8AF0 = .ok (.ldVxVy 0xA 0xF) ∧
    decode 0x8121 = .ok (.orVxVy 1 2) ∧ decode 0x8122 = .ok (.andVxVy 1 2) ∧ decode 0x8123 = .ok (.xorVxVy 1 2) ∧
    decode 0x8124 = .ok (.addVxVy 1 2) ∧ decode 0x8125 = .ok (.subVxVy 1 2) ∧ decode 0x8126 = .ok (.shrVxVy 1 2) ∧
    decode 0x8127 = .ok (.subnVxVy 1 2) ∧ decode 0x812E = .ok (.shlVxVy 1 2) ∧ decode 0xC10F = .ok (.rndVxNn 1 0x0F) := by decide +kernel

theorem test_decode_memory_display :
    decode 0xAFFF = .ok (.ldINnn 0xFFF) ∧ decode 0xF21E = .ok (.addIVx 2) ∧ decode 0xF329 = .ok (.ldFVx 3) ∧
    decode 0xF033 = .ok (.ldBVx 0) ∧ decode 0xFF55 = .ok (.ldMemVx 0xF) ∧ decode 0xF265 = .ok (.ldVxMem 2) ∧
    decode 0xD125 = .ok (.drw 1 2 5) := by decide +kernel

theorem test_decode_timers_keypad :
    decode 0xE39E = .ok (.skpVx 3) ∧ decode 0xE3A1 = .ok (.sknpVx 3) ∧ decode 0xF207 = .ok (.ldVxDt 2) ∧
    decode 0xF50A = .ok (.ldVxK 5) ∧ decode 0xF215 = .ok (.ldDtVx 2) ∧ decode 0xF218 = .ok (.ldStVx 2) := by decide +kernel

/-- The rejected opcodes of 95_test_vectors 2.1, and the two rows whose N is ignored. -/
theorem test_decode_rejects :
    ([0x0000, 0x00E1, 0x0123, 0x8128, 0x812F, 0xE19F, 0xF1FF, 0xF075].all
      fun op => decide (decode op = .error (.unknownOpcode op))) = true ∧
    decode 0x5127 = .ok (.seVxVy 1 2 7) ∧ decode 0x912F = .ok (.sneVxVy 1 2 0xF) := by decide +kernel

/-- 95_test_vectors 2.1, byte order, and R61: two bytes, no fewer. -/
theorem test_decodeBytes : decodeBytes [0xD1, 0x25, 0x77] = .ok (.drw 1 2 5, [0x77]) ∧ decodeBytes [0xD1] = .error .tooFewBytes := by decide +kernel

theorem test_decodeTableWord : decodeTableWord 16 0xD125 = some (.drw 1 2 5) ∧ decodeTableWord 16 0x0000 = none := by decide +kernel

theorem test_encode : encode (.drw 1 2 5) = 0xD125 ∧ encode (.jpV0Nnn 0xFFF) = 0xBFFF ∧ encodeBytes (.skpVx 3) = [0xE3, 0x9E] := by decide +kernel

/-! ### The step cycle and its reports (95_test_vectors 2.7) -/

/-- E1, E2. -/
theorem test_step_pcOutOfRange :
    step { State.reset with pc := 0xFFF } = .next { State.reset with pc := 0xFFF, report := some (.pcOutOfRange 0xFFF) } := rfl

/-- E3. -/
theorem test_step_at_4094 : steps (bytes 0xFFE [0x12, 0x00] { State.reset with pc := 0xFFE }) 0x200 none (fun _ => true) = true := by decide +kernel

/-- E4. -/
theorem test_step_unknownOpcode :
    step State.reset = .next { State.reset with pc := 0x202, report := some (.unknownOpcode 0) } := rfl

/-- E6. -/
theorem test_step_waiting :
    step { State.reset with mode := .waitingForKey 0 } = .next { State.reset with mode := .waitingForKey 0 } := rfl

/-- The odd fetch of 2.1: no alignment rule. -/
theorem test_step_odd_pc : steps (bytes 0x201 [0x12, 0x05] { State.reset with pc := 0x201 }) 0x205 none (fun _ => true) = true := by decide +kernel

/-! ### Control flow (2.2) -/

/-- CF1, CF4. -/
theorem test_jp : steps (start 0x1ABC) 0xABC none (fun _ => true) = true ∧ steps (start 0x1201) 0x201 none (fun _ => true) = true := by decide +kernel

/-- CF6, CF7. -/
theorem test_call :
    steps { start 0x2ABC with sp := 15 } 0xABC none (fun t => t.stack[15] == 0x202 && t.sp == 16) = true ∧
    steps { start 0x2ABC with sp := 16 } 0x202 (some .stackOverflow) (fun t => t.sp == 16 && t.stack[15] == 0) = true := by decide +kernel

/-- CF9, CF8. -/
theorem test_ret :
    steps { start 0x00EE with sp := 2, stack := (State.reset.stack.set 1 0x456).set 0 0x20A } 0x456 none (fun t => t.sp == 1) = true ∧
    steps (start 0x00EE) 0x202 (some .stackUnderflow) (fun t => t.sp == 0) = true := by decide +kernel

/-- CF11, CF12. -/
theorem test_seVxNn :
    steps (regs [(4, 0x33)] (start 0x3433)) 0x204 none (fun _ => true) = true ∧
    steps (regs [(4, 0x34)] (start 0x3433)) 0x202 none (fun _ => true) = true := by decide +kernel

/-- CF13, CF14. -/
theorem test_sneVxNn :
    steps (regs [(4, 0x33)] (start 0x4433)) 0x202 none (fun _ => true) = true ∧
    steps (regs [(4, 0x34)] (start 0x4433)) 0x204 none (fun _ => true) = true := by decide +kernel

/-- CF15, CF16. -/
theorem test_seVxVy :
    steps (regs [(1, 7), (2, 7)] (start 0x5120)) 0x204 none (fun _ => true) = true ∧
    steps (regs [(1, 7), (2, 8)] (start 0x5120)) 0x202 none (fun _ => true) = true := by decide +kernel

/-- CF18, CF19. -/
theorem test_sneVxVy :
    steps (regs [(1, 7), (2, 8)] (start 0x9120)) 0x204 none (fun _ => true) = true ∧
    steps (regs [(1, 7), (2, 7)] (start 0x9120)) 0x202 none (fun _ => true) = true := by decide +kernel

/-- CF22, CF23. -/
theorem test_jpV0Nnn :
    steps (regs [(0, 0xFF)] (start 0xBFFF)) 0x10FE none (fun _ => true) = true ∧
    steps (regs [(0, 1), (3, 0x55)] (start 0xB300)) 0x301 none (fun _ => true) = true := by decide +kernel

/-- CF24: a skip at the last address leaves the range. -/
theorem test_skip_at_end : steps (bytes 0xFFE [0x34, 0x00] { State.reset with pc := 0xFFE }) 0x1002 none (fun _ => true) = true := by decide +kernel

/-! ### Load and ALU (2.3) -/

/-- A1. -/
theorem test_ldVxNn : steps (start 0x6FAB) 0x202 none (fun t => t.getV 0xF == 0xAB) = true := by decide +kernel

/-- A2, A5. -/
theorem test_addVxNn :
    steps (regs [(1, 0xFF)] (start 0x7101)) 0x202 none (fun t => t.getV 1 == 0 && t.getV 0xF == 0) = true ∧
    steps (regs [(0xF, 0xFF)] (start 0x7F02)) 0x202 none (fun t => t.getV 0xF == 1) = true := by decide +kernel

/-- A6. -/
theorem test_ldVxVy : steps (regs [(2, 7), (1, 9)] (start 0x8120)) 0x202 none (fun t => t.getV 1 == 7 && t.getV 2 == 7) = true := by decide +kernel

/-- A7, A8, A9. -/
theorem test_logic :
    steps (regs [(1, 0x0F), (2, 0xF0), (0xF, 1)] (start 0x8121)) 0x202 none (fun t => t.getV 1 == 0xFF && t.getV 0xF == 1) = true ∧
    steps (regs [(1, 0x3C), (2, 0x0F), (0xF, 1)] (start 0x8122)) 0x202 none (fun t => t.getV 1 == 0x0C && t.getV 0xF == 1) = true ∧
    steps (regs [(1, 0xFF), (2, 0x0F), (0xF, 1)] (start 0x8123)) 0x202 none (fun t => t.getV 1 == 0xF0 && t.getV 0xF == 1) = true := by decide +kernel

/-- S3, A16, A18. -/
theorem test_addVxVy :
    steps (regs [(1, 200), (2, 100)] (start 0x8124)) 0x202 none (fun t => t.getV 1 == 44 && t.getV 0xF == 1) = true ∧
    steps (regs [(0xF, 200), (2, 100)] (start 0x8F24)) 0x202 none (fun t => t.getV 0xF == 1) = true ∧
    steps (regs [(1, 10), (0xF, 1)] (start 0x81F4)) 0x202 none (fun t => t.getV 1 == 11 && t.getV 0xF == 0) = true := by decide +kernel

/-- S5, A20, A25. -/
theorem test_subVxVy :
    steps (regs [(1, 50), (2, 80)] (start 0x8125)) 0x202 none (fun t => t.getV 1 == 226 && t.getV 0xF == 0) = true ∧
    steps (regs [(1, 7), (2, 7)] (start 0x8125)) 0x202 none (fun t => t.getV 1 == 0 && t.getV 0xF == 1) = true ∧
    steps (regs [(0xF, 3), (2, 5)] (start 0x8F25)) 0x202 none (fun t => t.getV 0xF == 0) = true := by decide +kernel

/-- A26, A27. -/
theorem test_subnVxVy :
    steps (regs [(1, 50), (2, 80)] (start 0x8127)) 0x202 none (fun t => t.getV 1 == 30 && t.getV 0xF == 1) = true ∧
    steps (regs [(1, 80), (2, 50)] (start 0x8127)) 0x202 none (fun t => t.getV 1 == 226 && t.getV 0xF == 0) = true := by decide +kernel

/-- A29, A34. -/
theorem test_shrVxVy :
    steps (regs [(1, 0xAA), (2, 5)] (start 0x8126)) 0x202 none (fun t => t.getV 1 == 2 && t.getV 2 == 5 && t.getV 0xF == 1) = true ∧
    steps (regs [(2, 2)] (start 0x8F26)) 0x202 none (fun t => t.getV 0xF == 0) = true := by decide +kernel

/-- A36, A38. -/
theorem test_shlVxVy :
    steps (regs [(2, 0x81)] (start 0x812E)) 0x202 none (fun t => t.getV 1 == 2 && t.getV 2 == 0x81 && t.getV 0xF == 1) = true ∧
    steps (regs [(1, 3), (2, 0x7F)] (start 0x812E)) 0x202 none (fun t => t.getV 1 == 0xFE && t.getV 0xF == 0) = true := by decide +kernel

/-- A41, A43. -/
theorem test_rndVxNn :
    steps { start 0xC10F with rndIn := some 0xA7 } 0x202 none (fun t => t.getV 1 == 0x07) = true ∧
    steps { start 0xC1FF with rndIn := some 0xA7 } 0x202 none (fun t => t.getV 1 == 0xA7) = true := by decide +kernel

/-! ### Index and memory (2.4) -/

/-- M1. -/
theorem test_ldINnn : steps (start 0xAFFF) 0x202 none (fun t => t.i == 0xFFF) = true := by decide +kernel

/-- M3, M4. -/
theorem test_addIVx :
    steps (regs [(2, 1)] { start 0xF21E with i := 0xFFF }) 0x202 none (fun t => t.i == 0x1000 && t.getV 0xF == 0) = true ∧
    steps (regs [(2, 2)] { start 0xF21E with i := 0xFFFF }) 0x202 none (fun t => t.i == 1) = true := by decide +kernel

/-- M5, M9. -/
theorem test_ldFVx :
    steps (regs [(3, 0x0A)] (start 0xF329)) 0x202 none (fun t => t.i == 0x32) = true ∧
    steps (regs [(3, 0xFF)] (start 0xF329)) 0x202 none (fun t => t.i == 0x4FB) = true := by decide +kernel

/-- S9, M16. -/
theorem test_ldBVx :
    steps (regs [(0, 214)] { start 0xF033 with i := 0x300 }) 0x202 none
      (fun t => t.readMem 0x300 == 2 && t.readMem 0x301 == 1 && t.readMem 0x302 == 4 && t.i == 0x300) = true ∧
    steps (regs [(0, 7)] { start 0xF033 with i := 0x4E }) 0x202 (some (.illegalMemAccess 0x4E))
      (fun t => t.readMem 0x4E == 0x80 && t.readMem 0x50 == 0) = true := by decide +kernel

/-- M19, M22. -/
theorem test_ldMemVx :
    steps (regs [(0, 1), (1, 2), (2, 3), (3, 4)] { start 0xF255 with i := 0x300 }) 0x202 none
      (fun t => t.readMem 0x300 == 1 && t.readMem 0x302 == 3 && t.readMem 0x303 == 0 && t.i == 0x300) = true ∧
    steps (regs [(0, 0x10)] { start 0xFF55 with i := 0xFF1 }) 0x202 (some (.illegalMemAccess 0x1000))
      (fun t => t.readMem 0xFF1 == 0) = true := by decide +kernel

/-- M24, M26. -/
theorem test_ldVxMem :
    steps (bytes 0x300 [2, 1, 4, 9] (regs [(3, 0x77)] { start 0xF265 with i := 0x300 })) 0x202 none
      (fun t => t.getV 0 == 2 && t.getV 2 == 4 && t.getV 3 == 0x77 && t.i == 0x300) = true ∧
    steps (bytes 0xFF1 [9] { start 0xFF65 with i := 0xFF1 }) 0x202 (some (.illegalMemAccess 0x1000)) (fun t => t.getV 0 == 0) = true := by decide +kernel

/-! ### Display (2.5) -/

/-- G1. -/
theorem test_cls :
    steps (regs [(0xF, 1)] (pixels [(3, 4)] (start 0x00E0))) 0x202 none (fun t => shows [] t && t.getV 0xF == 1 && t.draw) = true := by decide +kernel

/-- G13: clipped on both sides, and a collision. -/
theorem test_drw_clipped :
    steps (regs [(1, 62), (2, 30)] (pixels [(62, 30), (63, 30)] { start 0xD125 with i := 0x00F })) 0x202 none
      (fun t => shows [] t && t.getV 0xF == 1 && t.draw) = true := by decide +kernel

/-- G4, G5 (with 0xC0, so the leftmost pixel is bit 7), G9. -/
theorem test_drw_origin :
    steps (bytes 0x300 [0x80] (regs [(1, 68), (2, 33)] { start 0xD121 with i := 0x300 })) 0x202 none
      (fun t => shows [(4, 1)] t && t.getV 0xF == 0) = true ∧
    steps (bytes 0x300 [0xC0] (pixels [(0, 0)] { start 0xD121 with i := 0x300 })) 0x202 none
      (fun t => shows [(1, 0)] t && t.getV 0xF == 1) = true ∧
    steps (regs [(0xF, 1)] { start 0xD127 with i := 0xFFA }) 0x202 (some (.illegalMemAccess 0x1000))
      (fun t => shows [] t && t.getV 0xF == 1 && !t.draw) = true := by decide +kernel

/-! ### Timers and keypad (2.6) -/

/-- K1, K5. -/
theorem test_skpVx :
    steps (regs [(3, 0x0A)] ((start 0xE39E).setKeySlot 0xA true)) 0x204 none (fun _ => true) = true ∧
    steps (regs [(3, 0x10)] (start 0xE39E)) 0x202 (some (.keyIndexOutOfRange 0x10)) (fun _ => true) = true := by decide +kernel

/-- K3, K4, K6. -/
theorem test_sknpVx :
    steps (regs [(3, 0x0A)] ((start 0xE3A1).setKeySlot 0xA true)) 0x202 none (fun _ => true) = true ∧
    steps (regs [(3, 0x0A)] (start 0xE3A1)) 0x204 none (fun _ => true) = true ∧
    steps (regs [(3, 0x1A)] ((start 0xE3A1).setKeySlot 0xA true)) 0x202 (some (.keyIndexOutOfRange 0x1A)) (fun _ => true) = true := by decide +kernel

/-- K7, K8, K9. -/
theorem test_timer_copies :
    steps { start 0xF207 with dt := 0x3C } 0x202 none (fun t => t.getV 2 == 0x3C && t.dt == 0x3C) = true ∧
    steps (regs [(2, 0x3C)] (start 0xF215)) 0x202 none (fun t => t.dt == 0x3C && t.st == 0) = true ∧
    steps (regs [(2, 5)] (start 0xF218)) 0x202 none (fun t => t.st == 5 && t.dt == 0) = true := by decide +kernel

/-- K20: a held key does not resolve FX0A. -/
theorem test_ldVxK :
    steps ((start 0xF50A).setKeySlot 3 true) 0x200 none (fun t => t.mode == .waitingForKey 5 && t.getV 5 == 0) = true := by decide +kernel

/-! ### The other agents' transactions (2.6, 95_test_vectors part 3) -/

/-- K10, K11. -/
theorem test_tickTimers :
    tickTimers { State.reset with dt := 2 } = { State.reset with dt := 1 } ∧
    tickTimers { State.reset with st := 3 } = { State.reset with st := 2 } := by decide +kernel

/-- K15, K16, K17. -/
theorem test_setKey :
    setKey 7 true (State.setKeySlot { State.reset with mode := .waitingForKey 5 } 7 true) =
      State.setKeySlot { State.reset with mode := .waitingForKey 5 } 7 true ∧
    setKey 7 false (State.setKeySlot { State.reset with mode := .waitingForKey 5 } 7 true) =
      { State.reset with mode := .waitingForKey 5 } ∧
    setKey 7 true { State.reset with mode := .waitingForKey 5 } =
      { (State.reset.setV 5 7).setKeySlot 7 true with pc := 0x202 } := by decide +kernel

/-- K21. -/
theorem test_consumeDrawEvent : consumeDrawEvent { State.reset with draw := true } = (true, State.reset) := by decide +kernel

/-- K23. -/
theorem test_load : (load [0x12, 0x00] State.reset).mem = [⟨0x200, 0x12⟩] := by decide +kernel

/-- P4, its nine transactions: V1 is 5. -/
theorem test_program_P4 :
    (match runSchedule [.load [0xF0, 0x0A, 0xF0, 0x15, 0xF1, 0x07, 0x12, 0x06], .step none, .step none, .tickTimers, .setKey 7 true,
        .step none, .tickTimers, .tickTimers, .step none, .step none] State.reset with
      | .next (t, _) => t.getV 0 == 7 && t.getV 1 == 5 && t.dt == 5 && t.pc == 0x206 && t.mode == .running
      | .fault _ => false
      | .refused _ => false) = true := by decide +kernel

/-! ### Witnesses: a state and operands that meet the hypotheses of each obligation that has any -/

/-- An instruction answers a next state there that passes a check. -/
def runs (i : Instr) (s : State) (check : State → Bool) : Bool :=
  match exec i s with
  | .next t => check t
  | .fault _ => false
  | .refused _ => false

theorem runs_next {i : Instr} {s : State} {check : State → Bool} (h : runs i s check = true) :
    ∃ t, exec i s = .next t ∧ check t = true := by
  unfold runs at h
  split at h <;> simp_all

/-- PC at the last address a step fetches from, a jump there. -/
def atEnd : State := bytes 0xFFE [0x12, 0x00] { State.reset with pc := 0xFFE }

/-- PC past every instruction, a full stack of the largest entries. -/
def stuck : State := { State.reset with pc := 0x10FE, sp := 16, stack := Vector.replicate 16 0x1000 }

/-- A waiting machine at the last address, with a key held. -/
def waiting : State := State.setKeySlot { State.reset with mode := .waitingForKey 0xF, pc := 0xFFE } 3 true

/-- A store of two registers just past the font. -/
def storing : State := regs [(0, 0x12), (1, 0x08)] { start 0xF155 with i := 0x50 }

theorem witness_StepRunsDecodedInstruction :
    atEnd.mode = .running ∧ atEnd.pc.toNat ≤ 4094 ∧ decode atEnd.opcode = .ok (.jp 0x200) := by decide +kernel

theorem witness_StepThatExecutesNothing :
    waiting.mode = .waitingForKey 0xF ∧
    ({ State.reset with pc := 0xFFF } : State).mode = .running ∧ 4094 < ({ State.reset with pc := 0xFFF } : State).pc.toNat ∧
    (start 0x8128).mode = .running ∧ (start 0x8128).pc.toNat ≤ 4094 ∧ ∀ i, decode (start 0x8128).opcode ≠ .ok i := by
  refine ⟨by decide +kernel, by decide +kernel, by decide +kernel, by decide +kernel, by decide +kernel, fun i h => ?_⟩
  have e : decode (start 0x8128).opcode = .error (.unknownOpcode 0x8128) := by decide +kernel
  rw [e] at h
  cases h

/-- EncodeInvertsDecode, DecodeSelectsTheMatchingRow (both clauses). -/
theorem witness_decode :
    decode 0xFF65 = .ok (.ldVxMem 0xF) ∧ decode 0xFFFF = .error (.unknownOpcode 0xFFFF) := by decide +kernel

theorem witness_StepKeepsTheInvariant_stuck :
    Inv stuck ∧ step stuck = .next { stuck with report := some (.pcOutOfRange 0x10FE) } :=
  ⟨⟨rfl, fun _ _ => rfl, by decide +kernel, by decide +kernel, fun h => absurd rfl h⟩, rfl⟩

theorem witness_StepKeepsTheInvariant_storing :
    Inv storing ∧ steps storing 0x202 none (fun t => t.readMem 0x50 == 0x12) = true :=
  ⟨⟨by decide +kernel, by decide +kernel, by decide +kernel, by decide +kernel, fun h => absurd rfl h⟩, by decide +kernel⟩

/-- A waiting machine at the last address it can wait at, and the key press that moves it on. -/
theorem witness_TransactionsKeepTheInvariant :
    Inv waiting ∧ perform (.setKey 0 true) waiting = .next (setKey 0 true waiting, .nothing) ∧
    (setKey 0 true waiting).pc = 0x1000 ∧ (setKey 0 true waiting).mode = .running :=
  ⟨⟨rfl, fun _ _ => rfl, by decide +kernel, by decide +kernel, fun _ => by decide +kernel⟩, rfl, by decide +kernel,
    by decide +kernel⟩

theorem witness_Reachable : Reachable (load [0x12, 0x00] State.reset) :=
  .perform (t := .load [0x12, 0x00]) (a := .nothing) .reset rfl

/-- InstructionsWriteOnlyTheirRegisters, ResultsIgnoreRegistersNotRead: 8XY4 with X = 0 writes V0 and VF, not V5, and
does not read V5. -/
theorem witness_register_rules :
    writesReg (.addVxVy 0 1) 5 = false ∧ readsReg (.addVxVy 0 1) 5 = false ∧
    ∃ t, exec (.addVxVy 0 1) storing = .next t ∧ (t.getV 0 == 0x1A) = true :=
  ⟨rfl, rfl, runs_next (by decide +kernel)⟩

/-- ResultsIgnoreRegistersNotRead, a register that is written and not read: by 6XNN, by 8XY6 as its flag, and by an
FX65 that runs and one that reports. -/
theorem witness_written_not_read :
    (readsReg (.ldVxNn 0 7) 0 = false ∧ writesReg (.ldVxNn 0 7) 0 = true ∧ raises (.ldVxNn 0 7) storing = false) ∧
    (readsReg (.shrVxVy 0 1) 0xF = false ∧ writesReg (.shrVxVy 0 1) 0xF = true ∧ raises (.shrVxVy 0 1) storing = false) ∧
    (readsReg (.ldVxMem 0xF) 0 = false ∧ writesReg (.ldVxMem 0xF) 0 = true ∧ raises (.ldVxMem 0xF) storing = false) ∧
    raises (.ldVxMem 0xF) { storing with i := 0xFF1 } = true := by decide +kernel

/-- A row of each kind of R17's table: a skip, a full call, a return, a jump, the rest. -/
theorem witness_PcFollowsTheTable :
    (∃ t, exec (.seVxNn 0 0x12) storing = .next t ∧ (t.pc == 0x204) = true) ∧
    (∃ t, exec (.call 0x300) stuck = .next t ∧ (t.pc == 0x1100) = true) ∧
    (∃ t, exec .ret stuck = .next t ∧ (t.pc == 0x1000) = true) ∧
    (∃ t, exec (.jpV0Nnn 0xFFF) storing = .next t ∧ (t.pc == 0x1011) = true) ∧
    ∃ t, exec .cls storing = .next t ∧ (t.pc == 0x202) = true :=
  ⟨runs_next (by decide +kernel), runs_next (by decide +kernel), runs_next (by decide +kernel), runs_next (by decide +kernel),
    runs_next (by decide +kernel)⟩

/-- OnlyDisplayInstructionsTouchTheScreen, OnlyCallAndReturnTouchTheStack, TimersMoveOnlyByTheirWrites (first clause),
OnlyIndexInstructionsWriteTheIndex, OnlyStoresChangeMemory: FX55 is no display, stack, timer, index or waiting instruction; 00E0 is a display instruction and no store. -/
theorem witness_whole_machine_rules :
    (∃ t, exec (.ldMemVx 1) storing = .next t ∧ (t.readMem 0x51 == 0x08) = true) ∧
    (Instr.ldMemVx 1 ≠ .cls ∧ (∀ x y n, Instr.ldMemVx 1 ≠ .drw x y n) ∧ (∀ nnn, Instr.ldMemVx 1 ≠ .call nnn) ∧
      Instr.ldMemVx 1 ≠ .ret ∧ (∀ x, Instr.ldMemVx 1 ≠ .ldDtVx x) ∧ (∀ x, Instr.ldMemVx 1 ≠ .ldStVx x) ∧
      (∀ nnn, Instr.ldMemVx 1 ≠ .ldINnn nnn) ∧ (∀ x, Instr.ldMemVx 1 ≠ .addIVx x) ∧ ∀ x, Instr.ldMemVx 1 ≠ .ldFVx x) ∧
    (∃ t, exec .cls { storing with draw := true } = .next t ∧ t.draw = true) ∧
    (∀ x, Instr.cls ≠ .ldBVx x) ∧ ∀ x, Instr.cls ≠ .ldMemVx x :=
  ⟨runs_next (by decide +kernel), by simp, runs_next (by decide +kernel), by simp, by simp⟩

theorem jump_writes_no_timer {op : Word} (x : Nibble) (h : decode op = .ok (.jp 0x200)) :
    decode op ≠ .ok (.ldDtVx x) ∧ decode op ≠ .ok (.ldStVx x) := by simp [h]

/-- The second clause: two steps of a jump to itself write no timer. -/
theorem witness_TimersMoveOnlyByTheirWrites :
    NoTimerWrite 2 { start 0x1200 with dt := 9 } ∧ ∃ t, stepN 2 { start 0x1200 with dt := 9 } = .next t := by
  refine ⟨fun k u x hk hu => ?_, _, rfl⟩
  match k, hk with
  | 0, _ => cases hu; exact jump_writes_no_timer x (by decide +kernel)
  | 1, _ => cases hu; exact jump_writes_no_timer x (by decide +kernel)

/-- OnlySetKeyWritesTheKeypad, and the second clause of OnlyWaitForKeyStartsWaiting. -/
theorem witness_transactions :
    perform .consumeDrawEvent waiting = .next ({ waiting with draw := false }, .bit false) ∧
    (∀ k p, Transaction.consumeDrawEvent ≠ .setKey k p) ∧ ∀ r, Transaction.consumeDrawEvent ≠ .step r :=
  ⟨rfl, by simp, by simp⟩

/-- Both ends: a step that starts to wait, and one that goes on Running. -/
theorem witness_OnlyWaitForKeyStartsWaiting :
    (start 0xF50A).mode = .running ∧ steps (start 0xF50A) 0x200 none (fun t => t.mode == .waitingForKey 5) = true ∧
    atEnd.mode = .running ∧ steps atEnd 0x200 none (fun t => t.mode == .running) = true := by decide +kernel

/-- ReportingStepOnlyRecovers (both ends), InstructionsRaiseOnlyTheirReport: a report that its instruction may raise. -/
theorem witness_reports :
    step { State.reset with pc := 0xFFF } = .next { State.reset with pc := 0xFFF, report := some (.pcOutOfRange 0xFFF) } ∧
    steps { start 0x2ABC with sp := 16 } 0x202 (some .stackOverflow) (fun _ => true) = true ∧
    stuck.report = none ∧ ∃ t, exec (.call 0x300) stuck = .next t ∧ (t.report == some .stackOverflow) = true :=
  ⟨rfl, by decide +kernel, rfl, runs_next (by decide +kernel)⟩

/-- The first and the last PC out of range, and a transaction there. -/
theorem witness_OutOfRangePcIsStuckForEver :
    stuck.mode = .running ∧ 4094 < stuck.pc.toNat ∧ ({ State.reset with pc := 0xFFF } : State).mode = .running ∧
    4094 < ({ State.reset with pc := 0xFFF } : State).pc.toNat ∧
    perform (.setKey 3 true) stuck = .next (stuck.setKeySlot 3 true, .nothing) := by
  refine ⟨rfl, by decide +kernel, rfl, by decide +kernel, rfl⟩

/-- Both kinds of jump to itself are quiescent states. -/
theorem witness_QuiescentExactlyAtASelfJump :
    Quiescent (start 0x1200) ∧ Quiescent (regs [(0, 0x80)] (start 0xB180)) := ⟨⟨rfl, rfl⟩, rfl, rfl⟩

/-- ReturnPopsTheStack, CallPushesTheReturnAddress (both clauses each), CallThenReturnComesBack, at the ends of SP's range. -/
theorem witness_stack_clauses :
    0 < ({ State.reset with sp := 1 } : State).sp.val ∧ 0 < stuck.sp.val ∧ State.reset.sp.val = 0 ∧
    State.reset.sp.val < 16 ∧ ({ State.reset with sp := 15 } : State).sp.val < 16 ∧ stuck.sp.val = 16 := by decide +kernel

theorem witness_JumpSetsPc : (0x200 : Addr12).toNat = State.reset.pc.toNat := by decide +kernel

/-- ImmediateSkipsCompareVx, RegisterSkipsCompareVxVy: each side of each compare. -/
theorem witness_skips :
    storing.getV 0 = 0x12 ∧ storing.getV 0 ≠ 0x13 ∧ storing.getV 0 = storing.getV 0 ∧ storing.getV 0 ≠ storing.getV 1 := by
  decide +kernel

/-- AddSetsTheCarry, SubtractSetsNoBorrow, ShiftsMoveVyAndKeepTheBitOut: X other than F, and the two sides of the carry and of no borrow. -/
theorem witness_alu :
    (0 : Nibble) ≠ 0xF ∧ 255 < ((stuck.setV 0 128).getV 0).toNat + ((stuck.setV 0 128).getV 0).toNat ∧
    (storing.getV 1).toNat ≤ (storing.getV 0).toNat ∧ ¬ (storing.getV 0).toNat ≤ (storing.getV 1).toNat := by decide +kernel

theorem witness_RandomByteIsMasked :
    ({ State.reset with rndIn := some 0xA7 } : State).rndIn = some 0xA7 ∧ State.reset.rndIn = none ∧
    (0x0F : Byte).getLsbD 7 = false := by decide +kernel

/-- BcdStoresThreeDigits, RegisterDumpStoresV0ToVx, RegisterLoadReadsV0ToVx, DrawXorsTheClippedSprite,
DrawingTwiceErases: the lowest and the highest legal I of FX33 and FX55, the highest of FX65 and DXYN. -/
theorem witness_legal_ranges :
    Memory.wf storing.mem = true ∧ 0x50 ≤ storing.effAddr 0 ∧ storing.effAddr 2 ≤ 4095 ∧ storing.effAddr 1 ≤ 4095 ∧
    Memory.wf State.reset.mem = true ∧ 0x50 ≤ ({ State.reset with i := 0xFFD } : State).effAddr 0 ∧
    ({ State.reset with i := 0xFFD } : State).effAddr 2 ≤ 4095 ∧
    0x50 ≤ ({ State.reset with i := 0xFF0 } : State).effAddr 0 ∧
    ({ State.reset with i := 0xFF0 } : State).effAddr (0xF : Nibble).toNat ≤ 4095 ∧
    ({ State.reset with i := 0xFF1 } : State).effAddr (0xF : Nibble).toNat ≤ 4096 ∧
    (0 : Nibble).toNat = 0 ∧ (1 : Nibble) ≠ 0xF := by decide +kernel

/-- The lowest bad address at its bounds: the font's end, the first address past memory, an I past memory. -/
theorem witness_IllegalAccessReportsTheLowestAddress :
    LowestBad badWrite 0x4F 3 0x4F ∧ LowestBad badWrite 0xFFE 3 0x1000 ∧ LowestBad badWrite 0 1 0 ∧
    LowestBad badRead 0xFF1 16 0x1000 ∧ LowestBad badRead 0xFFFF 1 0xFFFF := by
  unfold LowestBad badWrite badRead
  refine ⟨?_, ?_, ?_, ?_, ?_⟩ <;> refine ⟨by omega, fun b h1 h2 h3 => ?_⟩ <;> omega

theorem witness_StoredBytesAreFetched :
    Memory.wf storing.mem = true ∧ 0x50 ≤ storing.effAddr 0 ∧ storing.effAddr (1 : Nibble).toNat ≤ 4095 ∧
    (0 : Nibble).toNat + 1 = (1 : Nibble).toNat ∧ (1 : Nibble).toNat ≤ (1 : Nibble).toNat ∧
    ∃ t, exec (.ldMemVx 1) storing = .next t ∧ (t.opcodeAt 0x50 == 0x1208) = true :=
  ⟨by decide +kernel, by decide +kernel, by decide +kernel, by decide +kernel, by decide +kernel, runs_next (by decide +kernel)⟩

/-- Vector S6's state, its first pixel already set. -/
def sprite : State := bytes 0x300 [0xFF] (regs [(1, 10), (2, 5)] (pixels [(10, 5)] { State.reset with i := 0x300 }))

/-- DrawXorsTheClippedSprite, DrawingTwiceErases: a set pixel that the sprite covers, a clear one that it covers. -/
theorem witness_drawing :
    (1 : Nibble) ≠ 0xF ∧ (2 : Nibble) ≠ 0xF ∧ sprite.effAddr (1 : Nibble).toNat ≤ 4096 ∧
    getPixel 10 5 sprite = true ∧ spriteCovers sprite 1 2 1 10 5 = true ∧
    getPixel 17 5 sprite = false ∧ spriteCovers sprite 1 2 1 17 5 = true ∧ spriteCovers sprite 1 2 1 18 5 = false := by
  decide +kernel

/-- DrawingTwiceErases with X = F: the first draw's VF moves the second's origin, from column 12 to column 0. -/
theorem witness_drawing_from_the_flag :
    (sprite.setV 0xF 12).effAddr (1 : Nibble).toNat ≤ 4096 ∧
    spriteCovers (sprite.setV 0xF 12) 0xF 2 1 12 5 = true ∧
    runs (.drw 0xF 2 1) (sprite.setV 0xF 12) (fun t => spriteCovers t 0xF 2 1 0 5 && !spriteCovers t 0xF 2 1 12 5) = true := by
  decide +kernel

/-- DrawXorsTheClippedSprite: no set pixel that the sprite covers. -/
theorem witness_no_collision :
    State.reset.effAddr (1 : Nibble).toNat ≤ 4096 ∧
    ∀ px py, getPixel px py State.reset = true → spriteCovers State.reset 1 2 1 px.toNat py.toNat = false := by
  refine ⟨by decide +kernel, fun px py h => ?_⟩
  simp only [getPixel, State.reset, Vector.getElem_replicate, Bool.false_eq_true] at h

/-- The last key, pressed and not, and the first value that names none. -/
theorem witness_KeySkipsReadTheLatch :
    ((State.reset.setV 1 0xF).getV 1).toNat = (0xF : Nibble).toNat ∧ State.reset.getKey 0xF = false ∧
    (State.reset.setKeySlot 0xF true).getKey 0xF = true ∧ 15 < ((State.reset.setV 1 0x10).getV 1).toNat := by decide +kernel

/-- TimerInstructionsCopy: an instruction that writes ST, and one that does not. -/
theorem witness_TimerInstructionsCopy :
    (∃ t, exec (.ldStVx 0) storing = .next t ∧ (t.st == 0x12) = true) ∧ (∀ x, Instr.cls ≠ .ldStVx x) ∧
    ∃ t, exec .cls { storing with st := 4 } = .next t ∧ (t.st == 4) = true :=
  ⟨runs_next (by decide +kernel), by simp, runs_next (by decide +kernel)⟩

theorem witness_WaitingLastsUntilAPress :
    waiting.mode = .waitingForKey 0xF ∧ waiting.getKey 0 = false ∧ (4 : Nibble) ≠ 0 := by decide +kernel

/-- Each of the three reasons why `setKey` completes nothing. -/
theorem witness_SetKeyWritesOneSlot :
    State.reset.mode = .running ∧ waiting.mode ≠ .running ∧ waiting.getKey 3 = true := by decide +kernel

theorem witness_LoadCopiesTheProgram : Memory.wf storing.mem = true ∧ 3583 < (List.replicate 3585 (0 : Byte)).length := by
  rw [List.length_replicate]
  decide +kernel

end Sys2Proof.Tests
end

section
/-! The fields of an opcode bit by bit, and the wide immediates put together from the narrow fields
(spec/30_encoding.md R62). -/

namespace Sys2Proof

/-! ### Each field bit by bit -/

theorem getLsbD_classOf (op : Word) (k : Nat) :
    (classOf op).getLsbD k = (decide (k < 4) && op.getLsbD (12 + k)) := BitVec.getLsbD_extractLsb' 12 4 op k

theorem getLsbD_xOf (op : Word) (k : Nat) :
    (xOf op).getLsbD k = (decide (k < 4) && op.getLsbD (8 + k)) := BitVec.getLsbD_extractLsb' 8 4 op k

theorem getLsbD_yOf (op : Word) (k : Nat) :
    (yOf op).getLsbD k = (decide (k < 4) && op.getLsbD (4 + k)) := BitVec.getLsbD_extractLsb' 4 4 op k

/-- The fields that begin at bit 0 (N, NN and NNN are its cases at widths 4, 8 and 12). -/
theorem getLsbD_lowField (op : Word) (len k : Nat) :
    (op.extractLsb' 0 len).getLsbD k = (decide (k < len) && op.getLsbD k) := by
  rw [BitVec.getLsbD_extractLsb', Nat.zero_add]

theorem getLsbD_nOf (op : Word) (k : Nat) :
    (nOf op).getLsbD k = (decide (k < 4) && op.getLsbD k) := getLsbD_lowField op 4 k

theorem getLsbD_nnOf (op : Word) (k : Nat) :
    (nnOf op).getLsbD k = (decide (k < 8) && op.getLsbD k) := getLsbD_lowField op 8 k

theorem getLsbD_nnnOf (op : Word) (k : Nat) :
    (nnnOf op).getLsbD k = (decide (k < 12) && op.getLsbD k) := getLsbD_lowField op 12 k

/-! ### The wide immediates -/

theorem nnOf_eq_append (op : Word) : nnOf op = yOf op ++ nOf op := by
  apply BitVec.eq_of_toNat_eq
  rw [toNat_append_mul, nnOf_toNat, yOf_toNat, nOf_toNat]; omega

theorem nnnOf_eq_append (op : Word) : nnnOf op = xOf op ++ yOf op ++ nOf op := by
  apply BitVec.eq_of_toNat_eq
  rw [toNat_append_mul, toNat_append_mul, nnnOf_toNat, xOf_toNat, yOf_toNat, nOf_toNat]; omega

/-- Settles O4: each field is a slice of the opcode, and NN and NNN are the narrow fields side by side. -/
theorem opcodeFieldsAreTheNamedBits : Obligations.OpcodeFieldsAreTheNamedBits := fun op k =>
  ⟨getLsbD_classOf op k, getLsbD_xOf op k, getLsbD_yOf op k, getLsbD_nOf op k, getLsbD_nnOf op k,
    getLsbD_nnnOf op k, nnOf_eq_append op, nnnOf_eq_append op⟩

end Sys2Proof
end

section
/-! Jumps and skips move PC only (spec/40_control_flow.md R102, R104, R105). -/

namespace Sys2Proof.Machine

section
variable (s : State)

/-! ### A PC write's frame -/

theorem kept_setPc (w : Word) : Kept [] s (s.setPc w) := by
  constructor <;> intros <;> rfl

/-- A skip is a PC write, taken or not. -/
theorem kept_skipIf (c : Bool) : Kept [] s (s.skipIf c) := kept_setPc s _

theorem setPc_self : s.setPc s.pc = s := rfl

theorem addrOfNnn_toNat (nnn : Addr12) : (addrOfNnn nnn).toNat = nnn.toNat :=
  BitVec.toNat_setWidth_of_le (by decide)

/-! ### Where a skip goes -/

theorem skipIf_pc_of_true {c : Bool} (h : c = true) : (s.skipIf c).pc = s.pc + 4 := by
  rw [skipIf_pc, if_pos h, BitVec.add_assoc]; rfl

theorem skipIf_pc_of_false {c : Bool} (h : c = false) : (s.skipIf c).pc = s.pc + 2 := by
  rw [skipIf_pc, if_neg (ne_true_of_eq_false h)]

end

/-! ### The two statements -/

/-- Settles O30: the jump writes NNN to PC, and the PC it has already changes nothing. -/
theorem jumpSetsPc : Obligations.JumpSetsPc := by
  intro nnn s
  refine ⟨s.setPc (addrOfNnn nnn), exec_eq_after (.jp nnn) s, addrOfNnn_toNat nnn, kept_setPc s _, fun h => ?_⟩
  have htarget : addrOfNnn nnn = s.pc := BitVec.eq_of_toNat_eq ((addrOfNnn_toNat nnn).trans h)
  rw [htarget, setPc_self]

/-- Settles O34: both are skips, decided by whether VX equals NN and by whether it differs. -/
theorem immediateSkipsCompareVx : Obligations.ImmediateSkipsCompareVx := by
  intro x nn s
  constructor
  · exact ⟨s.skipIf (s.getV x == nn), exec_eq_after (.seVxNn x nn) s, kept_skipIf s _,
      fun heq => skipIf_pc_of_true s (beq_iff_eq.2 heq), fun hne => skipIf_pc_of_false s (beq_eq_false_iff_ne.2 hne)⟩
  · exact ⟨s.skipIf (s.getV x != nn), exec_eq_after (.sneVxNn x nn) s, kept_skipIf s _,
      fun hne => skipIf_pc_of_true s (bne_iff_ne.2 hne), fun heq => skipIf_pc_of_false s (bne_eq_false_iff_eq.2 heq)⟩

end Sys2Proof.Machine
end

section
/-! Loads, moves and the add of an immediate write VX and advance PC, and do nothing else
(spec/41_load_and_alu.md R121 to R123). -/

namespace Sys2Proof.Machine

/-! ### A register write's frame -/

theorem kept_setV (s : State) (x : Nibble) (b : Byte) : Kept [x] s (s.setV x b) where
  v _ hr := getV_setV_ne (mt List.mem_singleton.2 hr) b
  i := rfl
  mem _ := rfl
  stack := rfl
  sp := rfl
  dt := rfl
  st := rfl
  fb := rfl
  key := rfl
  mode := rfl
  draw := rfl
  report := rfl
  rndIn := rfl
  rndCount := rfl

/-- `Kept` says nothing of PC, so an advance after a kept state is kept too. -/
theorem Kept.advance {s t : State} {regs : List Nibble} (h : Kept regs s t) : Kept regs s t.advance :=
  { h with }

/-- What an instruction answers whose whole effect is to write VX and advance PC. -/
theorem exec_of_after_setV {s : State} {i : Instr} {x : Nibble} {b : Byte} (h : after s i = (s.setV x b).advance) :
    ∃ t, exec i s = .next t ∧ t.getV x = b ∧ t.pc = s.pc + 2 ∧ Kept [x] s t :=
  ⟨(s.setV x b).advance, h ▸ exec_eq_after i s, getV_setV_same s x b, rfl, (kept_setV s x b).advance⟩

/-! ### The two statements -/

/-- Settles O36: both write one byte to VX, NN by 6XNN and VY by 8XY0, and advance. -/
theorem loadsAndMovesWriteVx : Obligations.LoadsAndMovesWriteVx :=
  ⟨fun x nn s => exec_of_after_setV (s := s) (i := .ldVxNn x nn) rfl,
    fun x y s => exec_of_after_setV (s := s) (i := .ldVxVy x y) rfl⟩

/-- Settles O37: the byte written is the sum of two bytes, which as a number is the sum modulo 256; X = F is no
special case. -/
theorem addImmediateWrapsWithoutAFlag : Obligations.AddImmediateWrapsWithoutAFlag := by
  intro x nn s
  obtain ⟨t, hexec, hsum, hpc, hkept⟩ := exec_of_after_setV (s := s) (i := .addVxNn x nn) rfl
  exact ⟨t, hexec, hsum ▸ BitVec.toNat_add (s.getV x) nn, hpc, hkept⟩

end Sys2Proof.Machine
end

section
/-! The two display instructions: they alone change the screen, and beside it they write VF and PC only
(spec/43_display.md R170, R171). -/

namespace Sys2Proof.Machine

/-! ### Frames -/

/-- A frame that excepts fewer registers also holds with more excepted. -/
theorem Kept.mono {regs regs' : List Nibble} {s t : State} (h : Kept regs s t) (hsub : regs ⊆ regs') :
    Kept regs' s t :=
  { h with v := fun r hr => h.v r (mt (@hsub r) hr) }

/-- Taking a report changes the report and PC only. -/
theorem kept_takeReport (s : State) (r : Report) : Kept [] { s with report := some r } (s.takeReport r) :=
  kept_setPc { s with report := some r } (r.recoveryPc s.pc)

/-- 00E0 changes the screen and PC only. -/
theorem kept_effect_cls (s : State) : Kept [] { s with fb := clearScreen, draw := true } (effect s .cls) :=
  kept_setPc { s with fb := clearScreen, draw := true } _

/-- DXYN, where it draws, changes the screen, VF and PC only. -/
theorem kept_effect_drw (s : State) (x y n : Nibble) :
    Kept [flagReg] { s with fb := (s.drawSprite x y n).fb, draw := true } (effect s (.drw x y n)) :=
  (kept_setV { s with fb := (s.drawSprite x y n).fb, draw := true } flagReg _).advance

/-! ### The screen -/

/-- The cleared framebuffer reads as cleared at every pixel. -/
theorem getPixel_of_fb_eq_clearScreen {s : State} (h : s.fb = clearScreen) (px : BitVec 6) (py : BitVec 5) :
    getPixel px py s = false := by
  simp [getPixel, h, clearScreen]

/-- The effect of an instruction that is no display instruction leaves the screen alone. -/
theorem effect_screen_of_not_display {i : Instr} (s : State) (hcls : i ≠ .cls) (hdrw : ∀ x y n, i ≠ .drw x y n) :
    (effect s i).fb = s.fb ∧ (effect s i).draw = s.draw := by
  cases i with
  | cls => exact absurd rfl hcls
  | drw x y n => exact absurd rfl (hdrw x y n)
  | ret => exact ⟨returned_fb s, returned_draw s⟩
  | call nnn => exact ⟨called_fb s nnn, called_draw s nnn⟩
  | _ => exact ⟨rfl, rfl⟩

/-- Everything a display instruction can do, whether it draws or reports: beside the framebuffer, DRAW and the report it
writes VF only, PC moves on by 2, and a draw event already marked stays marked. -/
theorem exec_display_frame {i : Instr} {s t : State} (h : exec i s = .next t)
    (hi : i = .cls ∨ ∃ x y n, i = .drw x y n) :
    Kept [flagReg] { s with fb := t.fb, draw := t.draw, report := t.report } t ∧ t.pc = s.pc + 2 ∧
      (s.draw = true → t.draw = true) := by
  obtain ⟨r, hr, rfl⟩ | ⟨-, rfl⟩ := exec_cases h
  · exact ⟨(kept_takeReport s r).mono (List.nil_subset _), recoveryPc_of_reportOf hr s.pc, id⟩
  · obtain rfl | ⟨x, y, n, rfl⟩ := hi
    · exact ⟨(kept_effect_cls s).mono (List.nil_subset _), rfl, fun _ => rfl⟩
    · exact ⟨kept_effect_drw s x y n, rfl, fun _ => rfl⟩

/-! ### The two statements -/

/-- Settles O17: every other instruction's effect leaves the screen alone and a report does too; what 00E0 and DXYN
leave alone is read off their common frame. -/
theorem onlyDisplayInstructionsTouchTheScreen : Obligations.OnlyDisplayInstructionsTouchTheScreen := by
  constructor
  · intro i s t h hcls hdrw
    obtain ⟨r, -, rfl⟩ | ⟨-, rfl⟩ := exec_cases h
    · exact ⟨takeReport_fb s r, takeReport_draw s r⟩
    · exact effect_screen_of_not_display s hcls hdrw
  · intro i s t h hi
    obtain ⟨hkept, hpc, hdraw⟩ := exec_display_frame h hi
    exact ⟨hkept.i, hkept.mem, hkept.stack, hkept.sp, hkept.dt, hkept.st, hkept.key, hkept.mode, hpc, hdraw⟩

/-- Settles O49: 00E0 raises nothing, so its answer is its effect, whose framebuffer is the cleared one. -/
theorem clearScreenClearsEveryPixel : Obligations.ClearScreenClearsEveryPixel := fun s =>
  ⟨effect s .cls, exec_eq_after .cls s, getPixel_of_fb_eq_clearScreen rfl, rfl, rfl, kept_effect_cls s⟩

end Sys2Proof.Machine
end

section
/-! The timers: an instruction's own write and `tickTimers` alone move them, and no instruction reads ST
(spec/44_timers_and_keypad.md R193 to R196). -/

namespace Sys2Proof.Machine

/-! ### What instructions and steps leave of the timers -/

/-- The effect of an instruction that is not FX15 leaves DT alone. -/
theorem effect_dt_of_ne {i : Instr} (s : State) (hi : ∀ x, i ≠ .ldDtVx x) : (effect s i).dt = s.dt := by
  cases i with
  | ldDtVx x => exact absurd rfl (hi x)
  | ret => exact returned_dt s
  | call nnn => exact called_dt s nnn
  | _ => rfl

/-- The effect of an instruction that is not FX18 leaves ST alone. -/
theorem effect_st_of_ne {i : Instr} (s : State) (hi : ∀ x, i ≠ .ldStVx x) : (effect s i).st = s.st := by
  cases i with
  | ldStVx x => exact absurd rfl (hi x)
  | ret => exact returned_st s
  | call nnn => exact called_st s nnn
  | _ => rfl

/-- Of the two timers an instruction leaves the one alone whose write it is not, whether it reports or has its effect. -/
theorem exec_timers {i : Instr} {s t : State} (h : exec i s = .next t) :
    ((∀ x, i ≠ .ldDtVx x) → t.dt = s.dt) ∧ ((∀ x, i ≠ .ldStVx x) → t.st = s.st) := by
  obtain ⟨r, -, rfl⟩ | ⟨-, rfl⟩ := exec_cases h
  · exact ⟨fun _ => takeReport_dt s r, fun _ => takeReport_st s r⟩
  · exact ⟨effect_dt_of_ne s, effect_st_of_ne s⟩

/-- A step that does not run FX15 or FX18 leaves both timers alone: it takes nothing from them. -/
theorem step_timers {s u : State} (h : step s = .next u)
    (hop : ∀ x, decode s.opcode ≠ .ok (.ldDtVx x) ∧ decode s.opcode ≠ .ok (.ldStVx x)) :
    u.dt = s.dt ∧ u.st = s.st := by
  obtain ⟨-, rfl⟩ | ⟨-, -, rfl⟩ | ⟨-, -, -, rfl⟩ | ⟨i, -, -, hdec, rfl⟩ := step_cases h
  · exact ⟨rfl, rfl⟩
  · exact ⟨rfl, rfl⟩
  · exact ⟨rfl, rfl⟩
  · obtain ⟨hdt, hst⟩ := exec_timers (exec_eq_after i s.clearReport)
    exact ⟨hdt fun x hi => (hop x).1 (hi ▸ hdec), hst fun x hi => (hop x).2 (hi ▸ hdec)⟩

/-! ### Runs, from their first step -/

/-- A run of one step more is a first step and the rest of the run. -/
theorem stepN_succ_of_step {s u : State} (h : step s = .next u) (n : Nat) : stepN (n + 1) s = stepN n u := by
  simp only [stepN, h]

/-- A run that answers a state has a first step. -/
theorem exists_step_of_stepN_succ {n : Nat} {s t : State} (h : stepN (n + 1) s = .next t) : ∃ u, step s = .next u := by
  cases hs : step s with
  | next u => exact ⟨u, rfl⟩
  | fault f => simp [stepN, hs] at h
  | refused r => simp [stepN, hs] at h

theorem NoTimerWrite.tail {n : Nat} {s u : State} (h : NoTimerWrite (n + 1) s) (hs : step s = .next u) :
    NoTimerWrite n u := fun k w x hk hw =>
  h (k + 1) w x (Nat.succ_lt_succ hk) ((stepN_succ_of_step hs k).trans hw)

/-- Any number of steps without FX15 and FX18 leaves both timers alone. -/
theorem stepN_timers (n : Nat) {s t : State} (hnw : NoTimerWrite n s) (h : stepN n s = .next t) :
    t.dt = s.dt ∧ t.st = s.st := by
  induction n generalizing s with
  | zero => cases h; exact ⟨rfl, rfl⟩
  | succ n ih =>
    obtain ⟨u, hs⟩ := exists_step_of_stepN_succ h
    obtain ⟨hdt, hst⟩ := step_timers hs fun x => hnw 0 s x n.succ_pos rfl
    obtain ⟨hdt', hst'⟩ := ih (hnw.tail hs) (stepN_succ_of_step hs n ▸ h)
    exact ⟨hdt'.trans hdt, hst'.trans hst⟩

/-! ### Nothing reads ST -/

/-- Whether an instruction reports does not depend on ST. -/
theorem reportOf_st (s : State) (b : Byte) (i : Instr) : reportOf { s with st := b } i = reportOf s i := by
  cases i <;> rfl

/-- From an empty stack, a return's own effect is none. -/
theorem returned_empty {s : State} (h : s.sp.val = 0) : returned s = s := by
  simp only [returned, pop_empty h]

/-- Onto a full stack, a call's own effect is none. -/
theorem called_full {s : State} (nnn : Addr12) (h : s.sp.val = 16) : called s nnn = s := by
  simp only [called, push_full s.next h]

theorem returned_st_update (s : State) (b : Byte) : returned { s with st := b } = { returned s with st := b } := by
  have hsp := s.sp.isLt
  cases hn : s.sp.val with
  | zero => rw [returned_empty hn, returned_empty (s := { s with st := b }) hn]
  | succ k =>
    have hk : k < 16 := by omega
    rw [returned_eq ⟨k, hk⟩ hn, returned_eq (s := { s with st := b }) ⟨k, hk⟩ hn]

theorem called_st_update (s : State) (nnn : Addr12) (b : Byte) :
    called { s with st := b } nnn = { called s nnn with st := b } := by
  by_cases hn : s.sp.val < 16
  · rw [called_eq nnn ⟨s.sp.val, hn⟩ rfl, called_eq (s := { s with st := b }) nnn ⟨s.sp.val, hn⟩ rfl]
    rfl
  · have hfull : s.sp.val = 16 := by omega
    rw [called_full nnn hfull, called_full (s := { s with st := b }) nnn hfull]

/-- The effect of an instruction that does not write ST is the same with another value there. -/
theorem effect_st_update {i : Instr} (s : State) (b : Byte) (hi : ∀ x, i ≠ .ldStVx x) :
    effect { s with st := b } i = { effect s i with st := b } := by
  cases i with
  | ldStVx x => exact absurd rfl (hi x)
  | ret => exact returned_st_update s b
  | call nnn => exact called_st_update s nnn b
  | _ => rfl

theorem after_st_update {i : Instr} (s : State) (b : Byte) (hi : ∀ x, i ≠ .ldStVx x) :
    after { s with st := b } i = { after s i with st := b } := by
  unfold after
  rw [reportOf_st]
  cases reportOf s i with
  | some r => rfl
  | none => exact effect_st_update s b hi

/-! ### The two statements -/

/-- Settles O19: an instruction writes a timer only where it is that timer's own write, and a run is its first step and
the rest. -/
theorem timersMoveOnlyByTheirWrites : Obligations.TimersMoveOnlyByTheirWrites :=
  ⟨fun _ _ _ => exec_timers, fun n _ _ => stepN_timers n⟩

/-- Settles O53: each of the three is one field's write and an advance; every other instruction commutes with a change
of ST, and FX18 writes over it. -/
theorem timerInstructionsCopy : Obligations.TimerInstructionsCopy := by
  refine ⟨fun x s => ⟨exec_of_after_setV rfl, ?_, ?_⟩, fun i s t b h => ⟨fun hi => ?_, ?_⟩⟩
  · exact ⟨effect s (.ldDtVx x), exec_eq_after (.ldDtVx x) s, rfl, rfl, kept_setPc { s with dt := s.getV x } _,
      tick_toNat (s.getV x)⟩
  · exact ⟨effect s (.ldStVx x), exec_eq_after (.ldStVx x) s, rfl, rfl, kept_setPc { s with st := s.getV x } _⟩
  · rw [exec_eq_after] at h
    obtain rfl := Host.Outcome.next.inj h
    rw [exec_eq_after, after_st_update s b hi]
  · rintro ⟨x, rfl⟩
    exact h

end Sys2Proof.Machine
end

section
/-! Decoding and encoding are inverse to each other, and decoding is the opcode map's one matching row
(spec/30_encoding.md R60, R67 to R69). -/

namespace Sys2Proof

/-! ### Decode of encode -/

@[simp] theorem classOf_encodeNNN (c : Nibble) (nnn : Addr12) : classOf (encodeNNN c nnn) = c :=
  (fields_encodeNNN c nnn).1

@[simp] theorem nnnOf_encodeNNN (c : Nibble) (nnn : Addr12) : nnnOf (encodeNNN c nnn) = nnn :=
  (fields_encodeNNN c nnn).2

@[simp] theorem classOf_encodeXNN (c x : Nibble) (nn : Byte) : classOf (encodeXNN c x nn) = c :=
  (fields_encodeXNN c x nn).1

@[simp] theorem xOf_encodeXNN (c x : Nibble) (nn : Byte) : xOf (encodeXNN c x nn) = x :=
  (fields_encodeXNN c x nn).2.1

@[simp] theorem nnOf_encodeXNN (c x : Nibble) (nn : Byte) : nnOf (encodeXNN c x nn) = nn :=
  (fields_encodeXNN c x nn).2.2

@[simp] theorem classOf_encodeNibbles (c x y n : Nibble) : classOf (encodeNibbles c x y n) = c :=
  (fields_encodeNibbles c x y n).1

@[simp] theorem xOf_encodeNibbles (c x y n : Nibble) : xOf (encodeNibbles c x y n) = x :=
  (fields_encodeNibbles c x y n).2.1

@[simp] theorem yOf_encodeNibbles (c x y n : Nibble) : yOf (encodeNibbles c x y n) = y :=
  (fields_encodeNibbles c x y n).2.2.1

@[simp] theorem nOf_encodeNibbles (c x y n : Nibble) : nOf (encodeNibbles c x y n) = n :=
  (fields_encodeNibbles c x y n).2.2.2

/-- Settles O5: the class of an encoded instruction selects its arm of `decode`, the selector its arm of the class's
decoder, and the operands are read back from where `encode` put them. -/
theorem decodeInvertsEncode : Obligations.DecodeInvertsEncode := by
  intro i
  cases i with
  | cls | ret => rfl
  | jp _ | call _ | ldINnn _ | jpV0Nnn _ => simp [encode, decode]
  | seVxNn _ _ | sneVxNn _ _ | ldVxNn _ _ | addVxNn _ _ | rndVxNn _ _ => simp [encode, decode]
  | seVxVy _ _ _ | sneVxVy _ _ _ => simp [encode, decode, decodeSkipReg]
  | drw _ _ _ => simp [encode, decode]
  | ldVxVy _ _ | orVxVy _ _ | andVxVy _ _ | xorVxVy _ _ | addVxVy _ _ | subVxVy _ _ | shrVxVy _ _ | subnVxVy _ _
  | shlVxVy _ _ => simp [encode, decode, decodeAlu]
  | skpVx _ | sknpVx _ => simp [encode, decode, decodeKey]
  | ldVxDt _ | ldVxK _ | ldDtVx _ | ldStVx _ | addIVx _ | ldFVx _ | ldBVx _ | ldMemVx _ | ldVxMem _ =>
    simp [encode, decode, decodeMisc]

/-! ### Encode of decode -/

theorem encode_of_decodeFull {op : Word} {i : Instr} (h : decodeFull op = .ok i) : encode i = op := by
  unfold decodeFull at h
  split at h
  · next hop => cases h; exact hop.symm
  · split at h
    · next hop => cases h; exact hop.symm
    · cases h

theorem encode_of_decodeAlu {op : Word} {i : Instr} (hc : classOf op = 8) (h : decodeAlu op = .ok i) :
    encode i = op := by
  have hop := encodeNibbles_fields op
  unfold decodeAlu at h
  split at h <;> cases h <;> next hn => rw [hc, hn] at hop; exact hop

theorem encode_of_decodeKey {op : Word} {i : Instr} (hc : classOf op = 0xE) (h : decodeKey op = .ok i) :
    encode i = op := by
  have hop := encodeXNN_fields op
  unfold decodeKey at h
  split at h <;> cases h <;> next hnn => rw [hc, hnn] at hop; exact hop

theorem encode_of_decodeMisc {op : Word} {i : Instr} (hc : classOf op = 0xF) (h : decodeMisc op = .ok i) :
    encode i = op := by
  have hop := encodeXNN_fields op
  unfold decodeMisc at h
  split at h <;> cases h <;> next hnn => rw [hc, hnn] at hop; exact hop

theorem encode_of_decode {op : Word} {i : Instr} (h : decode op = .ok i) : encode i = op := by
  have hNNN := encodeNNN_fields op
  have hXNN := encodeXNN_fields op
  have hNibbles := encodeNibbles_fields op
  unfold decode at h
  split at h
  case h_1 => exact encode_of_decodeFull h
  case h_9 hc => exact encode_of_decodeAlu hc h
  case h_15 hc => exact encode_of_decodeKey hc h
  case h_16 => exact encode_of_decodeMisc (by apply nibble_last <;> assumption) h
  all_goals
    next hc =>
      rw [hc] at hNNN hXNN hNibbles
      cases h
      assumption

/-- Settles O6: the class, and in the classes with a selector the selector, are the constants of the arm that was
taken, and the operands are the opcode's other fields, so the encoded word is the opcode put together again. -/
theorem encodeInvertsDecode : Obligations.EncodeInvertsDecode := fun _ _ => encode_of_decode

/-! ### The opcode map -/

/-- An instruction's opcode selects its row, which is one of the 34. -/
theorem row_selects_encode (i : Instr) : i.row ∈ opcodeTable ∧ i.row.selects (encode i) = true := by
  cases i with
  | cls => exact Laws.Encoding.cls
  | ret => exact Laws.Encoding.ret
  | jp nnn => exact Laws.Encoding.jp nnn
  | call nnn => exact Laws.Encoding.call nnn
  | seVxNn x nn => exact Laws.Encoding.seVxNn x nn
  | sneVxNn x nn => exact Laws.Encoding.sneVxNn x nn
  | seVxVy x y n => exact Laws.Encoding.seVxVy x y n
  | ldVxNn x nn => exact Laws.Encoding.ldVxNn x nn
  | addVxNn x nn => exact Laws.Encoding.addVxNn x nn
  | ldVxVy x y => exact Laws.Encoding.ldVxVy x y
  | orVxVy x y => exact Laws.Encoding.orVxVy x y
  | andVxVy x y => exact Laws.Encoding.andVxVy x y
  | xorVxVy x y => exact Laws.Encoding.xorVxVy x y
  | addVxVy x y => exact Laws.Encoding.addVxVy x y
  | subVxVy x y => exact Laws.Encoding.subVxVy x y
  | shrVxVy x y => exact Laws.Encoding.shrVxVy x y
  | subnVxVy x y => exact Laws.Encoding.subnVxVy x y
  | shlVxVy x y => exact Laws.Encoding.shlVxVy x y
  | sneVxVy x y n => exact Laws.Encoding.sneVxVy x y n
  | ldINnn nnn => exact Laws.Encoding.ldINnn nnn
  | jpV0Nnn nnn => exact Laws.Encoding.jpV0Nnn nnn
  | rndVxNn x nn => exact Laws.Encoding.rndVxNn x nn
  | drw x y n => exact Laws.Encoding.drw x y n
  | skpVx x => exact Laws.Encoding.skpVx x
  | sknpVx x => exact Laws.Encoding.sknpVx x
  | ldVxDt x => exact Laws.Encoding.ldVxDt x
  | ldVxK x => exact Laws.Encoding.ldVxK x
  | ldDtVx x => exact Laws.Encoding.ldDtVx x
  | ldStVx x => exact Laws.Encoding.ldStVx x
  | addIVx x => exact Laws.Encoding.addIVx x
  | ldFVx x => exact Laws.Encoding.ldFVx x
  | ldBVx x => exact Laws.Encoding.ldBVx x
  | ldMemVx x => exact Laws.Encoding.ldMemVx x
  | ldVxMem x => exact Laws.Encoding.ldVxMem x

theorem selects_iff {r : OpcodeRow} {op : Word} : r.selects op = true ↔ op &&& r.mask = r.bits := beq_iff_eq

/-- Each row masks the full opcode, the class, class and N, or class and NN, and asks of them what sends `decode` to
an arm. -/
theorem opcodeTable_kinds : ∀ r ∈ opcodeTable,
    (r.mask = 0xFFFF ∧ (r.bits = 0x00E0 ∨ r.bits = 0x00EE)) ∨
    (r.mask = 0xF000 ∧ classOf r.bits ∈ ([1, 2, 3, 4, 5, 6, 7, 9, 0xA, 0xB, 0xC, 0xD] : List Nibble)) ∨
    (r.mask = 0xF00F ∧ classOf r.bits = 8 ∧ nOf r.bits ∈ ([0, 1, 2, 3, 4, 5, 6, 7, 0xE] : List Nibble)) ∨
    (r.mask = 0xF0FF ∧ classOf r.bits = 0xE ∧ nnOf r.bits ∈ ([0x9E, 0xA1] : List Byte)) ∨
    (r.mask = 0xF0FF ∧ classOf r.bits = 0xF ∧
      nnOf r.bits ∈ ([0x07, 0x0A, 0x15, 0x18, 0x1E, 0x29, 0x33, 0x55, 0x65] : List Byte)) := by
  decide

theorem classOf_of_and_classMask {op bits : Word} (h : op &&& 0xF000 = bits) : classOf op = classOf bits := by
  rw [← h, and_classMask, classOf_encodeNNN]

theorem fields_of_and_aluMask {op bits : Word} (h : op &&& 0xF00F = bits) :
    classOf op = classOf bits ∧ nOf op = nOf bits := by
  rw [← h, and_aluMask, classOf_encodeNibbles, nOf_encodeNibbles]
  exact ⟨rfl, rfl⟩

theorem fields_of_and_selectorMask {op bits : Word} (h : op &&& 0xF0FF = bits) :
    classOf op = classOf bits ∧ nnOf op = nnOf bits := by
  rw [← h, and_selectorMask, classOf_encodeXNN, nnOf_encodeXNN]
  exact ⟨rfl, rfl⟩

/-- The classes without a selector decode whatever their operands are. -/
theorem exists_decode_of_class {op : Word}
    (hc : classOf op ∈ ([1, 2, 3, 4, 5, 6, 7, 9, 0xA, 0xB, 0xC, 0xD] : List Nibble)) : ∃ i, decode op = .ok i := by
  simp only [List.mem_cons, List.not_mem_nil, or_false] at hc
  rcases hc with hc | hc | hc | hc | hc | hc | hc | hc | hc | hc | hc | hc <;> exact ⟨_, by rw [decode, hc]; rfl⟩

theorem exists_decodeAlu {op : Word} (hn : nOf op ∈ ([0, 1, 2, 3, 4, 5, 6, 7, 0xE] : List Nibble)) :
    ∃ i, decodeAlu op = .ok i := by
  simp only [List.mem_cons, List.not_mem_nil, or_false] at hn
  rcases hn with hn | hn | hn | hn | hn | hn | hn | hn | hn <;> exact ⟨_, by rw [decodeAlu, hn]; rfl⟩

theorem exists_decodeKey {op : Word} (hnn : nnOf op ∈ ([0x9E, 0xA1] : List Byte)) : ∃ i, decodeKey op = .ok i := by
  simp only [List.mem_cons, List.not_mem_nil, or_false] at hnn
  rcases hnn with hnn | hnn <;> exact ⟨_, by rw [decodeKey, hnn]; rfl⟩

theorem exists_decodeMisc {op : Word}
    (hnn : nnOf op ∈ ([0x07, 0x0A, 0x15, 0x18, 0x1E, 0x29, 0x33, 0x55, 0x65] : List Byte)) :
    ∃ i, decodeMisc op = .ok i := by
  simp only [List.mem_cons, List.not_mem_nil, or_false] at hnn
  rcases hnn with hnn | hnn | hnn | hnn | hnn | hnn | hnn | hnn | hnn <;> exact ⟨_, by rw [decodeMisc, hnn]; rfl⟩

/-- An opcode that selects a row of the map is known to the decoder. -/
theorem exists_decode_of_selects {r : OpcodeRow} (hr : r ∈ opcodeTable) {op : Word} (h : r.selects op = true) :
    ∃ i, decode op = .ok i := by
  rw [selects_iff] at h
  obtain ⟨hm, hb⟩ | ⟨hm, hc⟩ | ⟨hm, hc, hn⟩ | ⟨hm, hc, hnn⟩ | ⟨hm, hc, hnn⟩ := opcodeTable_kinds r hr <;> rw [hm] at h
  · rw [and_fullMask] at h
    obtain hb | hb := hb <;> rw [h, hb]
    · exact ⟨.cls, rfl⟩
    · exact ⟨.ret, rfl⟩
  · exact exists_decode_of_class (classOf_of_and_classMask h ▸ hc)
  · obtain ⟨hc', hn'⟩ := fields_of_and_aluMask h
    rw [decode, hc', hc]
    exact exists_decodeAlu (hn' ▸ hn)
  · obtain ⟨hc', hnn'⟩ := fields_of_and_selectorMask h
    rw [decode, hc', hc]
    exact exists_decodeKey (hnn' ▸ hnn)
  · obtain ⟨hc', hnn'⟩ := fields_of_and_selectorMask h
    rw [decode, hc', hc]
    exact exists_decodeMisc (hnn' ▸ hnn)

/-- What is rejected is rejected as an unknown opcode. -/
theorem reject_of_decode {op : Word} {e : Reject} (h : decode op = .error e) : e = .unknownOpcode op := by
  unfold decode decodeFull decodeAlu decodeSkipReg decodeKey decodeMisc at h
  repeat' split at h
  all_goals cases h
  all_goals rfl

/-- An opcode that selects two rows agrees with both where both masks look. -/
theorem bits_and_mask_of_selects {r q : OpcodeRow} {op : Word} (hr : r.selects op = true) (hq : q.selects op = true) :
    r.bits &&& q.mask = q.bits &&& r.mask := by
  rw [selects_iff] at hr hq
  rw [← hr, ← hq, BitVec.and_assoc, BitVec.and_comm r.mask, BitVec.and_assoc]

theorem opcodeTable_pairwise :
    opcodeTable.Pairwise fun r q => r.bits &&& q.mask ≠ q.bits &&& r.mask := by
  decide

/-- Settles O7: a decoded opcode is the encoding of its instruction, which selects that instruction's row; an opcode
that selects any row is decoded; and any two rows differ in a bit that both look at. -/
theorem decodeSelectsTheMatchingRow : Obligations.DecodeSelectsTheMatchingRow := by
  refine ⟨fun op i h => ?_, fun op e h => ⟨reject_of_decode h, fun r hr => ?_⟩, rfl, ?_⟩
  · exact encode_of_decode h ▸ row_selects_encode i
  · rw [← Bool.not_eq_true]
    intro hsel
    obtain ⟨i, hi⟩ := exists_decode_of_selects hr hsel
    exact absurd (h.symm.trans hi) (by simp)
  · exact opcodeTable_pairwise.imp fun hne op hboth => hne (bits_and_mask_of_selects hboth.1 hboth.2)

/-- Settles O8: twelve words, each decoded by evaluation. -/
theorem wordsDecodeAsTheSpecSays : Obligations.WordsDecodeAsTheSpecSays := by
  refine ⟨?_, ?_, ?_, ?_, ?_, ?_, ?_, ?_, ?_, ?_, ?_, ?_⟩ <;> rfl

end Sys2Proof

namespace Sys2Proof.Machine

theorem opcodeAt_toNat (s : State) (a : Nat) :
    (s.opcodeAt a).toNat = (s.readMem a).toNat * 256 + (s.readMem (a + 1)).toNat :=
  toNat_append_mul (s.readMem a) (s.readMem (a + 1))

/-- Settles O3: the opcode is the byte at PC before the byte at PC + 1. -/
theorem fetchReadsTwoBytesHighFirst : Obligations.FetchReadsTwoBytesHighFirst := fun s => opcodeAt_toNat s s.pc.toNat

end Sys2Proof.Machine
end

section
/-! What every instruction and every step can do: the answer is always a next state, the cycle's own ends, and the
reports (spec/60_exceptions.md R210 to R220, spec/30_encoding.md R75). -/

namespace Sys2Proof.Machine

/-- Where an instruction answers a state, that state is its effect or a report's recovery. -/
theorem eq_after_of_exec {i : Instr} {s t : State} (h : exec i s = .next t) : t = after s i :=
  Host.Outcome.next.inj (h.symm.trans (exec_eq_after i s))

theorem after_of_reportOf_none {i : Instr} {s : State} (h : reportOf s i = none) : after s i = effect s i := by
  simp only [after, h]

theorem after_of_reportOf_some {i : Instr} {s : State} {r : Report} (h : reportOf s i = some r) :
    after s i = s.takeReport r := by
  simp only [after, h]

/-! ### The ends of a step, forwards -/

theorem step_of_waiting {s : State} (h : s.mode ≠ .running) : step s = .next s.clearReport := by
  refine step_of_idle ?_
  cases hm : s.mode with
  | running => exact absurd hm h
  | waitingForKey x => simp only [fetchFrom, clearReport_mode, hm]

theorem step_of_pcOutOfRange {s : State} (hm : s.mode = .running) (hpc : 4094 < s.pc.toNat) :
    step s = .next { s with report := some (.pcOutOfRange s.pc) } := by
  have hp : s.pcFetchable = false := Bool.eq_false_iff.2 fun h => absurd ((pcFetchable_iff s).1 h) (by omega)
  have hf : fetchFrom s.clearReport = .idle (s.clearReport.takeReport (.pcOutOfRange s.pc)) := by
    simp only [fetchFrom, clearReport_mode, hm, clearReport_pcFetchable, hp, clearReport_pc, Bool.false_eq_true,
      if_false]
  exact step_of_idle hf

/-- In Running mode with PC in range the cycle goes on to select the opcode at PC. -/
theorem fetchFrom_of_fetchable {s : State} (hm : s.mode = .running) (hpc : s.pc.toNat ≤ 4094) :
    fetchFrom s.clearReport = select s.opcode s.clearReport := by
  simp only [fetchFrom, clearReport_mode, hm, clearReport_pcFetchable, (pcFetchable_iff s).2 hpc, if_true,
    clearReport_opcode]

theorem step_of_decode {s : State} {i : Instr} (hm : s.mode = .running) (hpc : s.pc.toNat ≤ 4094)
    (hd : decode s.opcode = .ok i) : step s = exec i s.clearReport := by
  refine step_of_execute ((fetchFrom_of_fetchable hm hpc).trans ?_)
  simp only [select, hd]

theorem step_of_unknownOpcode {s : State} (hm : s.mode = .running) (hpc : s.pc.toNat ≤ 4094)
    (hd : ∀ i, decode s.opcode ≠ .ok i) :
    step s = .next { s with report := some (.unknownOpcode s.opcode), pc := s.pc + 2 } := by
  refine step_of_idle ((fetchFrom_of_fetchable hm hpc).trans ?_)
  cases hdec : decode s.opcode with
  | ok i => exact absurd hdec (hd i)
  | error e => simp only [select, hdec]; rfl

/-- Settles O1: mode and PC pass the checks of the cycle, and the opcode selects the instruction. -/
theorem stepRunsDecodedInstruction : Obligations.StepRunsDecodedInstruction := fun _ _ => step_of_decode

/-- Settles O2: each end is the check of the cycle that fails first. -/
theorem stepThatExecutesNothing : Obligations.StepThatExecutesNothing := fun s =>
  ⟨fun x hm => step_of_waiting (by simp [hm]), step_of_pcOutOfRange, step_of_unknownOpcode⟩

/-- Every step answers a next state. -/
theorem exists_step (s : State) : ∃ t, step s = .next t := by
  obtain ⟨-, hf⟩ | ⟨-, -, hf⟩ | ⟨-, -, -, hf⟩ | ⟨i, -, -, -, hf⟩ := fetchFrom_cases s.clearReport
  · exact ⟨_, step_of_idle hf⟩
  · exact ⟨_, step_of_idle hf⟩
  · exact ⟨_, step_of_idle hf⟩
  · exact ⟨_, (step_of_execute hf).trans (exec_eq_after i _)⟩

/-- Settles O13: an instruction answers its effect or a report's recovery, and a step is idle or an instruction. -/
theorem nothingStopsTheMachine : Obligations.NothingStopsTheMachine :=
  ⟨fun i s => ⟨after s i, exec_eq_after i s⟩, exists_step⟩

/-! ### Reports -/

/-- Settles O26: a step first clears the report, so an earlier one is gone before anything is read. -/
theorem reportsLeaveNoTrace : Obligations.ReportsLeaveNoTrace := fun s r => by
  have hclear : State.clearReport { s with report := r } = s.clearReport := rfl
  simp only [step, fetchDecode, hclear]

/-- The report in the state after an instruction is the one it raised, if it raised one. -/
theorem after_report (s : State) (i : Instr) : (after s i).report = (reportOf s i).or s.report := by
  cases hr : reportOf s i with
  | some r => rw [after_of_reportOf_some hr]; rfl
  | none => rw [after_of_reportOf_none hr, effect_report]; rfl

/-- A raised report as the whole effect of its instruction. -/
theorem after_of_report {i : Instr} {s : State} {r : Report} (h : reportOf s i = some r) :
    after s i = { s with report := some r, pc := s.pc + 2 } := by
  rw [after_of_reportOf_some h, State.takeReport, recoveryPc_of_reportOf h]

theorem exec_of_report {i : Instr} {s : State} {r : Report} (h : reportOf s i = some r) :
    exec i s = .next { s with report := some r, pc := s.pc + 2 } :=
  (exec_eq_after i s).trans (congrArg Host.Outcome.next (after_of_report h))

theorem exec_of_no_report {i : Instr} {s : State} (h : reportOf s i = none) : exec i s = .next (effect s i) :=
  (exec_eq_after i s).trans (congrArg Host.Outcome.next (after_of_reportOf_none h))

/-- A return that raises nothing pops the entry below SP. -/
theorem effect_ret_of_no_report {s : State} (h : reportOf s .ret = none) :
    ∃ k : Fin 16, s.sp.val = k.val + 1 ∧ effect s .ret = { s with sp := k.castSucc, pc := s.stack[k] } := by
  have hsp := s.sp.isLt
  simp only [reportOf, ite_eq_right_iff, reduceCtorEq, imp_false] at h
  have hk : s.sp.val = (⟨s.sp.val - 1, by omega⟩ : Fin 16).val + 1 := (Nat.succ_pred_eq_of_ne_zero h).symm
  exact ⟨_, hk, returned_eq _ hk⟩

/-- A call that raises nothing pushes PC + 2 at SP. -/
theorem effect_call_of_no_report {s : State} {nnn : Addr12} (h : reportOf s (.call nnn) = none) :
    ∃ k : Fin 16, s.sp.val = k.val ∧ effect s (.call nnn) =
      { s with stack := s.stack.set k.val (s.pc + 2) k.isLt, sp := k.succ, pc := addrOfNnn nnn } := by
  have hsp := s.sp.isLt
  simp only [reportOf, ite_eq_right_iff, reduceCtorEq, imp_false] at h
  exact ⟨⟨s.sp.val, by omega⟩, rfl, called_eq nnn ⟨s.sp.val, by omega⟩ rfl⟩

/-- Settles O24: the report is PcOutOfRange, UnknownOpcode or one that the instruction raised, and each is taken as a
whole-state recovery. -/
theorem reportingStepOnlyRecovers : Obligations.ReportingStepOnlyRecovers := by
  intro s t r h hrep
  obtain ⟨-, rfl⟩ | ⟨-, hpc, rfl⟩ | ⟨-, -, -, rfl⟩ | ⟨i, -, -, -, rfl⟩ := step_cases h
  · cases hrep
  · cases hrep
    exact .inl ⟨rfl, hpc, rfl⟩
  · cases hrep
    exact .inr ⟨by simp, rfl⟩
  · rw [after_report, clearReport_report, Option.or_none] at hrep
    exact .inr ⟨(reportOf_kind hrep).1, after_of_report hrep⟩

/-- What an instruction raises is of the kind it may raise. -/
theorem mayRaise_of_reportOf {s : State} {i : Instr} {r : Report} (h : reportOf s i = some r) :
    mayRaise i r = true := by
  cases i with
  | ret | call nnn | skpVx x | sknpVx x =>
    simp only [reportOf, Option.ite_none_right_eq_some, Option.some.injEq] at h
    obtain ⟨-, rfl⟩ := h
    rfl
  | drw x y n | ldBVx x | ldMemVx x | ldVxMem x =>
    simp only [reportOf, Option.map_eq_some_iff] at h
    obtain ⟨a, -, rfl⟩ := h
    rfl
  | _ => cases h

/-- Settles O25: with no earlier report, the report after an instruction is the one it raised. -/
theorem instructionsRaiseOnlyTheirReport : Obligations.InstructionsRaiseOnlyTheirReport := by
  intro i s t r hnone h hrep
  rw [eq_after_of_exec h, after_report, hnone, Option.or_none] at hrep
  exact mayRaise_of_reportOf hrep

end Sys2Proof.Machine
end

section
/-! Which fields an instruction, a step and a transaction write (spec/10_state.md R12 to R25, spec/20_memory.md R46,
R49). -/

namespace Sys2Proof.Machine

/-! ### The effect of an instruction, field by field -/

theorem effect_getV_of_not_written {i : Instr} (s : State) {r : Nibble} (h : writesReg i r = false) :
    (effect s i).getV r = s.getV r := by
  cases i with
  | ldVxNn x _ | addVxNn x _ | ldVxVy x _ | orVxVy x _ | andVxVy x _ | xorVxVy x _ | rndVxNn x _ | ldVxDt x =>
    exact getV_setV_ne (beq_eq_false_iff_ne.1 h) _
  | addVxVy x _ | subVxVy x _ | subnVxVy x _ | shrVxVy x _ | shlVxVy x _ =>
    obtain ⟨hx, hf⟩ := Bool.or_eq_false_iff.1 h
    exact (getV_setV_ne (beq_eq_false_iff_ne.1 hf) _).trans (getV_setV_ne (beq_eq_false_iff_ne.1 hx) _)
  | drw _ _ _ => exact getV_setV_ne (beq_eq_false_iff_ne.1 h) _
  | ldVxMem x =>
    have hlt : ¬ r.toNat < regCount x := fun hle => of_decide_eq_false h (Nat.le_of_lt_succ hle)
    exact (loadRegs_getElem s.mem s.i.toNat (regCount x) s.v r.toNat r.isLt).trans (if_neg hlt)
  | ret => exact returned_getV s r
  | call nnn => exact called_getV s nnn r
  | _ => rfl

theorem effect_i_of_ne {i : Instr} (s : State) (hld : ∀ nnn, i ≠ .ldINnn nnn) (hadd : ∀ x, i ≠ .addIVx x)
    (hglyph : ∀ x, i ≠ .ldFVx x) : (effect s i).i = s.i := by
  cases i with
  | ldINnn nnn => exact absurd rfl (hld nnn)
  | addIVx x => exact absurd rfl (hadd x)
  | ldFVx x => exact absurd rfl (hglyph x)
  | ret => exact returned_i s
  | call nnn => exact called_i s nnn
  | _ => rfl

theorem effect_stack_of_ne {i : Instr} (s : State) (hcall : ∀ nnn, i ≠ .call nnn) : (effect s i).stack = s.stack := by
  cases i with
  | call nnn => exact absurd rfl (hcall nnn)
  | ret => exact returned_stack s
  | _ => rfl

theorem effect_sp_of_ne {i : Instr} (s : State) (hcall : ∀ nnn, i ≠ .call nnn) (hret : i ≠ .ret) :
    (effect s i).sp = s.sp := by
  cases i with
  | call nnn => exact absurd rfl (hcall nnn)
  | ret => exact absurd rfl hret
  | _ => rfl

theorem effect_mem_of_ne {i : Instr} (s : State) (hbcd : ∀ x, i ≠ .ldBVx x) (hdump : ∀ x, i ≠ .ldMemVx x) :
    (effect s i).mem = s.mem := by
  cases i with
  | ldBVx x => exact absurd rfl (hbcd x)
  | ldMemVx x => exact absurd rfl (hdump x)
  | ret => exact returned_mem s
  | call nnn => exact called_mem s nnn
  | _ => rfl

theorem effect_key (s : State) (i : Instr) : (effect s i).key = s.key := by
  cases i with
  | ret => exact returned_key s
  | call nnn => exact called_key s nnn
  | _ => rfl

theorem effect_mode_of_ne {i : Instr} (s : State) (hi : ∀ x, i ≠ .ldVxK x) : (effect s i).mode = s.mode := by
  cases i with
  | ldVxK x => exact absurd rfl (hi x)
  | ret => exact returned_mode s
  | call nnn => exact called_mode s nnn
  | _ => rfl

/-! ### Stores -/

/-- A write whose range check passes lies between the font and the end of memory. -/
theorem legal_of_writeRangeError {base len : Nat} (hlen : len ≠ 0)
    (h : (writeRangeError base len).map Report.illegalMemAccess = none) : 0x50 ≤ base ∧ base + len ≤ 4096 := by
  obtain ⟨hfont, hend⟩ := writeRangeError_none.1 (Option.map_eq_none_iff.1 h)
  exact ⟨hfont, hend.resolve_left hlen⟩

/-- An instruction that raises nothing leaves memory alone or stores bytes at I, all of them between the font and the
end of memory. -/
theorem effect_mem_cases {i : Instr} {s : State} (h : reportOf s i = none) :
    (effect s i).mem = s.mem ∨
      ∃ bs : List Byte, 0x50 ≤ s.i.toNat ∧ s.i.toNat + bs.length ≤ 4096 ∧
        (effect s i).mem = Memory.writeBytes s.mem s.i.toNat bs := by
  cases i with
  | ldBVx x =>
    obtain ⟨hfont, hend⟩ := legal_of_writeRangeError (by decide) h
    exact .inr ⟨bcdDigits (s.getV x), hfont, hend, rfl⟩
  | ldMemVx x =>
    obtain ⟨hfont, hend⟩ := legal_of_writeRangeError (Nat.succ_ne_zero x.toNat) h
    exact .inr ⟨s.firstRegs (regCount x), hfont, (firstRegs_length s (regCount_le x)).symm ▸ hend, rfl⟩
  | _ => exact .inl (effect_mem_of_ne s (by simp) (by simp))

/-- No effect reaches the font or an address past memory. -/
theorem effect_readMem_of_protected {i : Instr} {s : State} (h : reportOf s i = none) {a : Nat}
    (ha : a < 0x50 ∨ 4095 < a) : (effect s i).readMem a = s.readMem a := by
  obtain hmem | ⟨bs, hfont, hend, hmem⟩ := effect_mem_cases h
  · simp only [State.readMem, hmem]
  · simp only [State.readMem, hmem]
    exact Memory.read_writeBytes_out (by omega)

/-! ### The statements about instructions -/

/-- Settles O14: a report writes no register, and an effect only those of its row. -/
theorem instructionsWriteOnlyTheirRegisters : Obligations.InstructionsWriteOnlyTheirRegisters := by
  intro i s t r h hw
  obtain ⟨q, -, rfl⟩ | ⟨-, rfl⟩ := exec_cases h
  · exact takeReport_getV s q r
  · exact effect_getV_of_not_written s hw

/-- Settles O18: a report leaves the stack alone, and so does every effect but those of 2NNN and 00EE. -/
theorem onlyCallAndReturnTouchTheStack : Obligations.OnlyCallAndReturnTouchTheStack := by
  intro i s t h hcall
  obtain ⟨r, -, rfl⟩ | ⟨-, rfl⟩ := exec_cases h
  · exact ⟨takeReport_stack s r, fun _ => takeReport_sp s r⟩
  · exact ⟨effect_stack_of_ne s hcall, effect_sp_of_ne s hcall⟩

/-- Settles O22: a report leaves I alone, and so does the effect of every instruction but the three. -/
theorem onlyIndexInstructionsWriteTheIndex : Obligations.OnlyIndexInstructionsWriteTheIndex := by
  intro i s t h hld hadd hglyph
  obtain ⟨r, -, rfl⟩ | ⟨-, rfl⟩ := exec_cases h
  · exact takeReport_i s r
  · exact effect_i_of_ne s hld hadd hglyph

/-- Settles O23: a report leaves memory alone; an effect is a store of FX33 or FX55 or leaves memory alone, and the
range check of a store keeps it out of the font and inside memory. -/
theorem onlyStoresChangeMemory : Obligations.OnlyStoresChangeMemory := by
  intro i s t h
  obtain ⟨r, -, rfl⟩ | ⟨hr, rfl⟩ := exec_cases h
  · exact ⟨fun _ _ => takeReport_readMem s r, fun a _ => takeReport_readMem s r a⟩
  · refine ⟨fun hbcd hdump a => ?_, fun a => effect_readMem_of_protected hr⟩
    simp only [State.readMem, effect_mem_of_ne s hbcd hdump]

/-! ### Steps and transactions -/

theorem after_key (s : State) (i : Instr) : (after s i).key = s.key := by
  obtain ⟨r, -, h⟩ | ⟨-, h⟩ := exec_cases (exec_eq_after i s) <;> rw [h]
  · exact takeReport_key s r
  · exact effect_key s i

theorem step_key {s t : State} (h : step s = .next t) : t.key = s.key := by
  obtain ⟨-, rfl⟩ | ⟨-, -, rfl⟩ | ⟨-, -, -, rfl⟩ | ⟨i, -, -, -, rfl⟩ := step_cases h
  · rfl
  · rfl
  · rfl
  · exact after_key s.clearReport i

/-- What a transaction leaves: a step's answer with the presented byte taken back, or what the agent's function
gives. -/
theorem perform_cases {tr : Transaction} {s u : State} {a : Answer} (h : perform tr s = .next (u, a)) :
    (∃ rnd t, tr = .step rnd ∧ step { s with rndIn := rnd } = .next t ∧ u = { t with rndIn := none }) ∨
    (tr = .tickTimers ∧ u = tickTimers s) ∨ (∃ k p, tr = .setKey k p ∧ u = setKey k p s) ∨
    (∃ bytes, tr = .load bytes ∧ u = load bytes s) ∨ (tr = .consumeDrawEvent ∧ u = { s with draw := false }) ∨
    u = s := by
  cases tr with
  | step rnd =>
    obtain ⟨t, ht⟩ := exists_step { s with rndIn := rnd }
    simp only [perform, stepWith, ht] at h
    cases h
    exact .inl ⟨rnd, t, rfl, ht, rfl⟩
  | tickTimers => cases h; exact .inr (.inl ⟨rfl, rfl⟩)
  | setKey k p => cases h; exact .inr (.inr (.inl ⟨k, p, rfl, rfl⟩))
  | load bytes => cases h; exact .inr (.inr (.inr (.inl ⟨bytes, rfl, rfl⟩)))
  | consumeDrawEvent => cases h; exact .inr (.inr (.inr (.inr (.inl ⟨rfl, rfl⟩))))
  | getPixel x y => cases h; exact .inr (.inr (.inr (.inr (.inr rfl))))
  | getDelayTimer => cases h; exact .inr (.inr (.inr (.inr (.inr rfl))))
  | getSoundTimer => cases h; exact .inr (.inr (.inr (.inr (.inr rfl))))

/-- Settles O20: no effect and no report writes the latch, and the other agents write other fields. -/
theorem onlySetKeyWritesTheKeypad : Obligations.OnlySetKeyWritesTheKeypad := by
  refine ⟨fun s t => step_key, fun tr s u a h hset => ?_⟩
  obtain ⟨rnd, t, -, hs, rfl⟩ | ⟨-, rfl⟩ | ⟨k, p, rfl, -⟩ | ⟨bytes, -, rfl⟩ | ⟨-, rfl⟩ | rfl := perform_cases h
  · exact (step_key hs :)
  · rfl
  · exact absurd rfl (hset k p)
  · rfl
  · rfl
  · rfl

/-- An instruction keeps the mode, unless it is FX0A. -/
theorem after_mode_cases (s : State) (i : Instr) :
    (after s i).mode = s.mode ∨ ∃ x, i = .ldVxK x ∧ after s i = { s with mode := .waitingForKey x } := by
  obtain ⟨r, -, h⟩ | ⟨-, h⟩ := exec_cases (exec_eq_after i s)
  · exact .inl (h ▸ takeReport_mode s r)
  · by_cases hi : ∃ x, i = .ldVxK x
    · obtain ⟨x, rfl⟩ := hi
      exact .inr ⟨x, rfl, rfl⟩
    · exact .inl (h ▸ effect_mode_of_ne s fun x hx => hi ⟨x, hx⟩)

/-- Settles O21: of the ends of a step only the instruction FX0A writes the mode, and of the transactions beside the
step only `setKey`. -/
theorem onlyWaitForKeyStartsWaiting : Obligations.OnlyWaitForKeyStartsWaiting := by
  refine ⟨fun s t hm h => ?_, fun tr s u a h hstep hset => ?_⟩
  · obtain ⟨-, rfl⟩ | ⟨-, -, rfl⟩ | ⟨-, -, -, rfl⟩ | ⟨i, -, -, hdec, rfl⟩ := step_cases h
    · exact .inl hm
    · exact .inl hm
    · exact .inl hm
    · obtain hmode | ⟨x, rfl, hwait⟩ := after_mode_cases s.clearReport i
      · exact .inl (hmode.trans hm)
      · exact .inr ⟨x, hdec, hwait⟩
  · obtain ⟨rnd, t, rfl, -, -⟩ | ⟨-, rfl⟩ | ⟨k, p, rfl, -⟩ | ⟨bytes, -, rfl⟩ | ⟨-, rfl⟩ | rfl := perform_cases h
    · exact absurd rfl (hstep rnd)
    · rfl
    · exact absurd rfl (hset k p)
    · rfl
    · rfl
    · rfl

end Sys2Proof.Machine
end

section
/-! PC after every instruction, and which registers the result does not depend on (spec/10_state.md R12, R17). -/

namespace Sys2Proof.Machine

/-! ### Targets as words -/

theorem addrOfNnn_eq_ofNat (nnn : Addr12) : addrOfNnn nnn = BitVec.ofNat 16 nnn.toNat := by
  apply BitVec.eq_of_toNat_eq
  have := nnn.isLt
  rw [addrOfNnn_toNat, BitVec.toNat_ofNat, Nat.mod_eq_of_lt (by omega)]

theorem wordOfByte_toNat (b : Byte) : (wordOfByte b).toNat = b.toNat := BitVec.toNat_setWidth_of_le (by decide)

/-- NNN plus a byte fits in 16 bits. -/
theorem offset_toNat (nnn : Addr12) (b : Byte) : (addrOfNnn nnn + wordOfByte b).toNat = nnn.toNat + b.toNat := by
  have := nnn.isLt
  have := b.isLt
  rw [BitVec.toNat_add, addrOfNnn_toNat, wordOfByte_toNat]
  omega

theorem offset_eq_ofNat (nnn : Addr12) (b : Byte) :
    addrOfNnn nnn + wordOfByte b = BitVec.ofNat 16 (nnn.toNat + b.toNat) := by
  rw [← offset_toNat, BitVec.ofNat_toNat, BitVec.setWidth_eq]

theorem skipIf_pc_eq (s : State) (c : Bool) : (s.skipIf c).pc = pcAfterSkip s c := by
  cases c with
  | true => exact skipIf_pc_of_true s rfl
  | false => exact skipIf_pc_of_false s rfl

/-! ### The key a register names -/

theorem keyOf_toNat {s : State} {x : Nibble} (h : (s.getV x).toNat ≤ 15) : (keyOf s x).toNat = (s.getV x).toNat := by
  rw [keyOf, BitVec.toNat_setWidth, Nat.mod_eq_of_lt (by omega)]

/-- Where VX names a key, the table's "the key VX names is `p`" reads that key's slot. -/
theorem exists_key_iff {s : State} {x : Nibble} (h : (s.getV x).toNat ≤ 15) (p : Bool) :
    (∃ k : Fin 16, k.val = (s.getV x).toNat ∧ s.key[k] = p) ↔ s.getKey (keyOf s x) = p := by
  constructor
  · rintro ⟨k, hk, rfl⟩
    simp only [State.getKey, keyOf_toNat h, ← hk]
    rfl
  · intro hp
    exact ⟨(keyOf s x).toFin, keyOf_toNat h, hp⟩

/-- Where VX names no key, it is neither pressed nor released. -/
theorem not_exists_key {s : State} {x : Nibble} (h : 15 < (s.getV x).toNat) (p : Bool) :
    ¬ ∃ k : Fin 16, k.val = (s.getV x).toNat ∧ s.key[k] = p := by
  rintro ⟨k, hk, -⟩
  omega

/-! ### PC -/

theorem pcAfter_ret (s : State) :
    pcAfter s .ret = if h : 0 < s.sp.val then s.stack[s.sp.val - 1] else s.pc + 2 := rfl

theorem pcAfter_call (s : State) (nnn : Addr12) :
    pcAfter s (.call nnn) = if s.sp.val < 16 then BitVec.ofNat 16 nnn.toNat else s.pc + 2 := rfl

theorem pcAfter_skpVx (s : State) (x : Nibble) :
    pcAfter s (.skpVx x) = pcAfterSkip s (decide (∃ k : Fin 16, k.val = (s.getV x).toNat ∧ s.key[k] = true)) := rfl

theorem pcAfter_sknpVx (s : State) (x : Nibble) :
    pcAfter s (.sknpVx x) = pcAfterSkip s (decide (∃ k : Fin 16, k.val = (s.getV x).toNat ∧ s.key[k] = false)) := rfl

/-- An instruction that reports stands in the table's row PC + 2. -/
theorem pcAfter_of_report {s : State} {i : Instr} {r : Report} (h : reportOf s i = some r) :
    pcAfter s i = s.pc + 2 := by
  cases i with
  | ret =>
    simp only [reportOf, Option.ite_none_right_eq_some] at h
    rw [pcAfter_ret, dif_neg (by omega)]
  | call nnn =>
    simp only [reportOf, Option.ite_none_right_eq_some] at h
    rw [pcAfter_call, if_neg (by omega)]
  | skpVx x | sknpVx x =>
    simp only [reportOf, Option.ite_none_right_eq_some] at h
    simp only [pcAfter_skpVx, pcAfter_sknpVx, decide_eq_false (not_exists_key h.1 _)]
    rfl
  | drw _ _ _ | ldBVx _ | ldMemVx _ | ldVxMem _ => rfl
  | _ => cases h

/-- The effect of an instruction that reports nothing moves PC as the table says. -/
theorem effect_pc {s : State} {i : Instr} (h : reportOf s i = none) : (effect s i).pc = pcAfter s i := by
  cases i with
  | seVxNn _ _ | sneVxNn _ _ | seVxVy _ _ _ | sneVxVy _ _ _ => exact skipIf_pc_eq s _
  | skpVx x | sknpVx x =>
    simp only [reportOf, ite_eq_right_iff, reduceCtorEq, imp_false] at h
    refine (skipIf_pc_eq s _).trans ?_
    simp only [pcAfter_skpVx, pcAfter_sknpVx, exists_key_iff (Nat.le_of_not_lt h), Bool.decide_eq_true,
      Bool.decide_eq_false, beq_true, beq_false]
  | jp nnn => exact addrOfNnn_eq_ofNat nnn
  | jpV0Nnn nnn => exact offset_eq_ofNat nnn (s.getV 0)
  | call nnn =>
    obtain ⟨k, hk, heff⟩ := effect_call_of_no_report h
    rw [heff, pcAfter_call, if_pos (hk ▸ k.isLt)]
    exact addrOfNnn_eq_ofNat nnn
  | ret =>
    obtain ⟨k, hk, heff⟩ := effect_ret_of_no_report h
    rw [heff, pcAfter_ret, dif_pos (by omega)]
    simp only [hk]
    rfl
  | _ => rfl

theorem after_pc (s : State) (i : Instr) : (after s i).pc = pcAfter s i := by
  obtain ⟨r, hr, h⟩ | ⟨hr, h⟩ := exec_cases (exec_eq_after i s) <;> rw [h]
  · exact (recoveryPc_of_reportOf hr s.pc).trans (pcAfter_of_report hr).symm
  · exact effect_pc hr

/-- Settles O16: a report moves PC on by 2, which is what the table gives there, and an effect moves it by its row. -/
theorem pcFollowsTheTable : Obligations.PcFollowsTheTable := fun i s _ h =>
  (congrArg State.pc (eq_after_of_exec h)).trans (after_pc s i)

/-! ### Two register writes -/

theorem setV_setV_same (s : State) (r : Nibble) (b c : Byte) : (s.setV r b).setV r c = s.setV r c := by
  simp only [State.setV, Vector.set_set]

theorem setV_comm (s : State) {r q : Nibble} (h : r ≠ q) (b c : Byte) :
    (s.setV r b).setV q c = (s.setV q c).setV r b := by
  have hne : r.toNat ≠ q.toNat := fun heq => h (BitVec.eq_of_toNat_eq heq)
  simp only [State.setV, Vector.set_comm _ _ hne]

/-- A write to a register `q` after one to `r` undoes it or leaves it be. -/
theorem setV_after_setV (s : State) (r q : Nibble) (b c : Byte) :
    (s.setV r b).setV q c = if r == q then s.setV q c else (s.setV q c).setV r b := by
  by_cases h : r = q
  · subst h
    simp only [beq_self_eq_true, if_true, setV_setV_same]
  · simp only [beq_eq_false_iff_ne.2 h, Bool.false_eq_true, if_false, setV_comm s h]

/-- An instruction whose whole effect is to write one register, with what `r` held before out of play. -/
theorem setV_advance_after_setV (s : State) (r q : Nibble) (b c : Byte) :
    ((s.setV r b).setV q c).advance = if r == q then (s.setV q c).advance else (s.setV q c).advance.setV r b := by
  rw [setV_after_setV]
  split <;> rfl

/-- The same for a result and a flag. -/
theorem setV_flag_advance_after_setV (s : State) (r q : Nibble) (b c f : Byte) :
    (((s.setV r b).setV q c).setV flagReg f).advance =
      if r == q || r == flagReg then ((s.setV q c).setV flagReg f).advance
      else ((s.setV q c).setV flagReg f).advance.setV r b := by
  rw [setV_after_setV s r q]
  by_cases hq : (r == q) = true
  · simp only [hq, if_true, Bool.true_or]
  · rw [if_neg hq, Bool.eq_false_iff.2 hq, Bool.false_or]
    exact setV_advance_after_setV (s.setV q c) r flagReg b f

/-! ### What is not read -/

theorem getV_setV_of_beq_false {s : State} {r q : Nibble} (h : (r == q) = false) (b : Byte) :
    (s.setV r b).getV q = s.getV q :=
  getV_setV_ne (beq_eq_false_iff_ne.1 h).symm b

theorem reportOf_setV_of_not_read {i : Instr} (s : State) {r : Nibble} (b : Byte) (h : readsReg i r = false) :
    reportOf (s.setV r b) i = reportOf s i := by
  cases i with
  | skpVx x | sknpVx x => simp only [reportOf, getV_setV_of_beq_false h]
  | _ => rfl

theorem firstRegs_setV_of_lt (s : State) {r : Nibble} {n : Nat} (b : Byte) (h : n ≤ r.toNat) :
    (s.setV r b).firstRegs n = s.firstRegs n := by
  simp only [State.firstRegs, setV_v, Vector.toList_set]
  exact List.take_set_of_le h

theorem returned_setV (s : State) (r : Nibble) (b : Byte) : returned (s.setV r b) = (returned s).setV r b := by
  have hsp := s.sp.isLt
  cases hn : s.sp.val with
  | zero => rw [returned_empty hn, returned_empty (s := s.setV r b) hn]
  | succ k =>
    have hk : k < 16 := by omega
    rw [returned_eq ⟨k, hk⟩ hn, returned_eq (s := s.setV r b) ⟨k, hk⟩ hn]
    rfl

theorem called_setV (s : State) (nnn : Addr12) (r : Nibble) (b : Byte) :
    called (s.setV r b) nnn = (called s nnn).setV r b := by
  by_cases hn : s.sp.val < 16
  · rw [called_eq nnn ⟨s.sp.val, hn⟩ rfl, called_eq (s := s.setV r b) nnn ⟨s.sp.val, hn⟩ rfl]
    rfl
  · have hfull : s.sp.val = 16 := by omega
    rw [called_full nnn hfull, called_full (s := s.setV r b) nnn hfull]

/-- A register load writes over a register in its range and passes by any other. -/
theorem loadRegs_set (m : Memory) (base n : Nat) (v : Vector Byte 16) (r : Nibble) (b : Byte) :
    loadRegs m base n (v.set r.toNat b r.isLt) =
      if r.toNat < n then loadRegs m base n v else (loadRegs m base n v).set r.toNat b r.isLt := by
  refine Vector.ext fun k hk => ?_
  by_cases hr : r.toNat < n
  · simp only [hr, if_true, loadRegs_getElem, Vector.getElem_set]
    split
    · rfl
    · next hkn => rw [if_neg (by omega)]
  · simp only [hr, if_false, loadRegs_getElem, Vector.getElem_set]
    split
    · next hkn => rw [if_neg (by omega)]
    · rfl

/-- With another value in a register that an instruction does not read, its effect is the same where it writes the
register, and else the same but for that value. -/
theorem effect_setV_of_not_read {i : Instr} (s : State) {r : Nibble} (b : Byte) (h : readsReg i r = false) :
    effect (s.setV r b) i = if writesReg i r then effect s i else (effect s i).setV r b := by
  cases i with
  | ret => exact returned_setV s r b
  | call nnn => exact called_setV s nnn r b
  | seVxNn x _ | sneVxNn x _ | jpV0Nnn _ | skpVx x | sknpVx x | ldDtVx x | ldStVx x | addIVx x | ldFVx x | ldBVx x =>
    simp only [effect, keyOf, getV_setV_of_beq_false h]
    rfl
  | seVxVy x y _ | sneVxVy x y _ =>
    obtain ⟨hx, hy⟩ := Bool.or_eq_false_iff.1 h
    simp only [effect, getV_setV_of_beq_false hx, getV_setV_of_beq_false hy]
    rfl
  | ldVxNn x _ | ldVxDt x => exact setV_advance_after_setV s r x b _
  | rndVxNn x nn => exact setV_advance_after_setV s.drawRandom r x b _
  | addVxNn x _ | ldVxVy x _ =>
    simp only [effect, getV_setV_of_beq_false h]
    exact setV_advance_after_setV s r x b _
  | orVxVy x y | andVxVy x y | xorVxVy x y =>
    obtain ⟨hx, hy⟩ := Bool.or_eq_false_iff.1 h
    simp only [effect, getV_setV_of_beq_false hx, getV_setV_of_beq_false hy]
    exact setV_advance_after_setV s r x b _
  | shrVxVy x _ | shlVxVy x _ =>
    simp only [effect, getV_setV_of_beq_false h]
    exact setV_flag_advance_after_setV s r x b _ _
  | addVxVy x y | subVxVy x y | subnVxVy x y =>
    obtain ⟨hx, hy⟩ := Bool.or_eq_false_iff.1 h
    simp only [effect, getV_setV_of_beq_false hx, getV_setV_of_beq_false hy]
    exact setV_flag_advance_after_setV s r x b _ _
  | drw x y n =>
    obtain ⟨hx, hy⟩ := Bool.or_eq_false_iff.1 h
    have hsprite : (s.setV r b).drawSprite x y n = s.drawSprite x y n := by
      simp only [State.drawSprite, getV_setV_of_beq_false hx, getV_setV_of_beq_false hy]
      rfl
    simp only [effect, hsprite]
    exact setV_advance_after_setV { s with fb := (s.drawSprite x y n).fb, draw := true } r flagReg b _
  | ldMemVx x =>
    have hr : regCount x ≤ r.toNat := Nat.lt_of_not_le (of_decide_eq_false h)
    simp only [effect, firstRegs_setV_of_lt s b hr]
    rfl
  | ldVxMem x =>
    have hiff : r.toNat < regCount x ↔ r.toNat ≤ x.toNat := Nat.lt_succ_iff
    simp only [effect, setV_v, loadRegs_set, hiff, writesReg, decide_eq_true_eq]
    split <;> rfl
  | _ => rfl

/-- Settles O15: whether the instruction reports does not depend on the register; a report's recovery leaves `b`
there, and so does the effect unless it writes the register. -/
theorem resultsIgnoreRegistersNotRead : Obligations.ResultsIgnoreRegistersNotRead := by
  intro i s t r b hread h
  refine ⟨after (s.setV r b) i, exec_eq_after i _, ?_⟩
  rw [raises_eq]
  obtain ⟨q, hq, rfl⟩ | ⟨hnone, rfl⟩ := exec_cases h
  · rw [after_of_reportOf_some ((reportOf_setV_of_not_read s b hread).trans hq), hq]
    refine ⟨setV_setV_same (s.takeReport q) r b 0, ?_⟩
    rw [if_neg (by simp)]
    exact getV_setV_same (s.takeReport q) r b
  · rw [after_of_reportOf_none ((reportOf_setV_of_not_read s b hread).trans hnone), hnone,
      effect_setV_of_not_read s b hread]
    by_cases hw : writesReg i r = true
    · simp only [hw, if_true, Option.isSome_none, and_self]
    · simp only [hw, if_false, false_and, setV_setV_same, getV_setV_same, and_self, Bool.false_eq_true]

end Sys2Proof.Machine
end

section
/-! The invariant of spec/10_state.md R30: it holds at reset, and every step and every other transaction keeps it. -/

namespace Sys2Proof.Machine

/-! ### Reset -/

theorem font_getElem? {a : Nat} (h : a < 0x50) : Config.font[a]? = some (State.reset.readMem a) := by
  have hlen : a < Config.font.length := h
  have hread : State.reset.readMem a = resetByte a := rfl
  rw [hread, resetByte, if_pos h, List.getElem?_eq_getElem hlen, Option.getD_some]

/-- Settles O9: registers, stack, framebuffer and latch are replicated zeros, and memory lists nothing, so each address
reads its reset contents. -/
theorem resetHoldsTheStatedValues : Obligations.ResetHoldsTheStatedValues := by
  refine ⟨fun r => ?_, rfl, rfl, fun k => ?_, rfl, rfl, rfl, fun x y => ?_, fun k => ?_, rfl, rfl,
    fun a => font_getElem?, fun a hlo _ => if_neg (Nat.not_lt.2 hlo)⟩
  · exact Vector.getElem_replicate r.isLt
  · exact Vector.getElem_replicate k.isLt
  · exact getPixel_of_fb_eq_clearScreen rfl x y
  · exact Vector.getElem_replicate k.isLt

/-- Settles O10: memory lists nothing, PC is 0x200, the stack is empty and the machine is Running. -/
theorem resetMeetsTheInvariant : Obligations.ResetMeetsTheInvariant where
  mem_wf := rfl
  font _ _ := rfl
  pc_le := by decide
  stack_le k hk := absurd hk (Nat.not_lt_zero _)
  waiting_pc h := absurd rfl h

/-! ### Updates that the invariant does not see -/

/-- The invariant reads memory, PC, the stack and the mode. -/
theorem Inv.congr {s t : State} (h : Inv s) (hmem : t.mem = s.mem) (hpc : t.pc = s.pc) (hstack : t.stack = s.stack)
    (hsp : t.sp = s.sp) (hmode : t.mode = s.mode) : Inv t where
  mem_wf := hmem ▸ h.mem_wf
  font a ha := by simpa only [State.readMem, hmem] using h.font a ha
  pc_le := hpc ▸ h.pc_le
  stack_le := by rw [hstack, hsp]; exact h.stack_le
  waiting_pc := by rw [hmode, hpc]; exact h.waiting_pc

/-! ### Instructions, clause by clause -/

theorem pc_add_toNat {pc : Word} (h : pc.toNat ≤ 4094) :
    (pc + 2).toNat = pc.toNat + 2 ∧ (pc + 4).toNat = pc.toNat + 4 := by
  constructor <;> bv_omega

theorem pcAfterSkip_le {s : State} (h : s.pc.toNat ≤ 4094) (c : Bool) : (pcAfterSkip s c).toNat ≤ 0x10FE := by
  obtain ⟨h2, h4⟩ := pc_add_toNat h
  cases c with
  | true => exact h4 ▸ (by omega)
  | false => exact h2 ▸ (by omega)

/-- No row of the table leads past 0x10FE = 0xFFF + 0xFF, which BNNN reaches. -/
theorem pcAfter_le {s : State} (hs : Inv s) (hpc : s.pc.toNat ≤ 4094) (i : Instr) : (pcAfter s i).toNat ≤ 0x10FE := by
  obtain ⟨h2, -⟩ := pc_add_toNat hpc
  have hnext : (s.pc + 2).toNat ≤ 0x10FE := h2 ▸ (by omega)
  cases i with
  | seVxNn _ _ | sneVxNn _ _ | seVxVy _ _ _ | sneVxVy _ _ _ | skpVx _ | sknpVx _ => exact pcAfterSkip_le hpc _
  | jp nnn =>
    have hjp : pcAfter s (.jp nnn) = addrOfNnn nnn := (addrOfNnn_eq_ofNat nnn).symm
    rw [hjp, addrOfNnn_toNat]
    have := nnn.isLt
    omega
  | jpV0Nnn nnn =>
    have hjp : pcAfter s (.jpV0Nnn nnn) = addrOfNnn nnn + wordOfByte (s.getV 0) := (offset_eq_ofNat nnn _).symm
    rw [hjp, offset_toNat]
    have := nnn.isLt
    have := (s.getV 0).isLt
    omega
  | call nnn =>
    rw [pcAfter_call]
    split
    · rw [← addrOfNnn_eq_ofNat, addrOfNnn_toNat]
      have := nnn.isLt
      omega
    · exact hnext
  | ret =>
    rw [pcAfter_ret]
    split
    · next hpos =>
      have hle := hs.stack_le ⟨s.sp.val - 1, by omega⟩ (Nat.sub_lt hpos Nat.one_pos)
      exact Nat.le_trans hle (by decide)
    · exact hnext
  | ldVxK _ => exact hs.pc_le
  | _ => exact hnext

theorem after_mem_wf {s : State} (hs : Inv s) (i : Instr) : Memory.wf (after s i).mem = true := by
  obtain ⟨r, -, h⟩ | ⟨hr, h⟩ := exec_cases (exec_eq_after i s) <;> rw [h]
  · exact hs.mem_wf
  · obtain hmem | ⟨bs, -, hend, hmem⟩ := effect_mem_cases hr <;> rw [hmem]
    · exact hs.mem_wf
    · exact Memory.writeBytes_wf hend hs.mem_wf

/-- A call pushes an address a step fetched from, plus 2; a return leaves fewer live entries. -/
theorem after_stack_le {s : State} (hs : Inv s) (hpc : s.pc.toNat ≤ 4094) (i : Instr) (k : Fin 16)
    (hk : k.val < (after s i).sp.val) : ((after s i).stack[k]).toNat ≤ 4096 := by
  obtain ⟨r, -, h⟩ | ⟨hr, h⟩ := exec_cases (exec_eq_after i s) <;> rw [h] at hk ⊢
  · exact hs.stack_le k hk
  · cases i with
    | call nnn =>
      obtain ⟨j, hj, heff⟩ := effect_call_of_no_report hr
      rw [heff] at hk ⊢
      simp only [Fin.val_succ] at hk
      simp only [Fin.getElem_fin, Vector.getElem_set]
      split
      · rw [(pc_add_toNat hpc).1]
        omega
      · exact hs.stack_le k (by omega)
    | ret =>
      obtain ⟨j, hj, heff⟩ := effect_ret_of_no_report hr
      rw [heff] at hk ⊢
      simp only [Fin.val_castSucc] at hk
      exact hs.stack_le k (by omega)
    | _ => exact hs.stack_le k hk

/-- An instruction run from where a step fetches keeps the invariant. -/
theorem Inv.after {s : State} (hs : Inv s) (hm : s.mode = .running) (hpc : s.pc.toNat ≤ 4094) (i : Instr) :
    Inv (after s i) where
  mem_wf := after_mem_wf hs i
  font a ha := ((onlyStoresChangeMemory i s _ (exec_eq_after i s)).2 a (.inl ha)).trans (hs.font a ha)
  pc_le := after_pc s i ▸ pcAfter_le hs hpc i
  stack_le := after_stack_le hs hpc i
  waiting_pc hwait := by
    obtain hmode | ⟨x, -, h⟩ := after_mode_cases s i
    · exact absurd (hmode.trans hm) hwait
    · rw [h]
      exact hpc

theorem Inv.clearReport {s : State} (hs : Inv s) : Inv s.clearReport := hs.congr rfl rfl rfl rfl rfl

theorem Inv.step {s t : State} (hs : Inv s) (h : step s = .next t) : Inv t := by
  obtain ⟨-, rfl⟩ | ⟨-, -, rfl⟩ | ⟨hm, hpc, -, rfl⟩ | ⟨i, hm, hpc, -, rfl⟩ := step_cases h
  · exact hs.clearReport
  · exact hs.congr rfl rfl rfl rfl rfl
  · have hnext : (s.pc + 2).toNat = s.pc.toNat + 2 := (pc_add_toNat hpc).1
    exact { hs.clearReport with
      pc_le := hnext.trans_le (by omega)
      waiting_pc := fun hwait => absurd hm hwait }
  · exact hs.clearReport.after hm hpc i

/-- Settles O11: the ends that execute nothing move PC from where a step fetches by at most 2, and an instruction keeps
each clause. -/
theorem stepKeepsTheInvariant : Obligations.StepKeepsTheInvariant := fun _ _ => Inv.step

/-! ### The other transactions -/

/-- `setKey` writes a latch slot, and where it completes an FX0A moves PC on from where it could be fetched. -/
theorem Inv.setKey {s : State} (hs : Inv s) (k : Nibble) (p : Bool) : Inv (setKey k p s) := by
  obtain ⟨x, hm, -, -, h⟩ | ⟨-, h⟩ := setKey_cases k p s <;> rw [h]
  · have hpc : s.pc.toNat ≤ 4094 := hs.waiting_pc (by simp [hm])
    have hnext : (s.pc + 2).toNat = s.pc.toNat + 2 := (pc_add_toNat hpc).1
    exact {
      mem_wf := hs.mem_wf
      font := hs.font
      pc_le := hnext.trans_le (by omega)
      stack_le := hs.stack_le
      waiting_pc := fun hwait => absurd rfl hwait }
  · exact hs.congr rfl rfl rfl rfl rfl

/-- `load` stores between 0x200 and the end of memory. -/
theorem Inv.load {s : State} (hs : Inv s) (bytes : List Byte) : Inv (load bytes s) :=
  { hs with
    mem_wf := Memory.writeBytes_wf (Nat.add_le_add_left (List.length_take_le Config.progMax bytes) Config.progBase)
      hs.mem_wf
    font := fun a ha =>
      (Memory.read_writeBytes_out (.inl (Nat.lt_trans ha (by decide)))).trans (hs.font a ha) }

/-- Settles O60: a step keeps the invariant with any byte presented to it, `setKey` and `load` keep it, and the other
transactions write nothing that it reads. -/
theorem transactionsKeepTheInvariant : Obligations.TransactionsKeepTheInvariant := by
  intro tr s u a hs h
  obtain ⟨rnd, t, -, hstep, rfl⟩ | ⟨-, rfl⟩ | ⟨k, p, -, rfl⟩ | ⟨bytes, -, rfl⟩ | ⟨-, rfl⟩ | rfl := perform_cases h
  · have hpresented : Inv { s with rndIn := rnd } := hs.congr rfl rfl rfl rfl rfl
    exact (hpresented.step hstep).congr rfl rfl rfl rfl rfl
  · exact hs.congr rfl rfl rfl rfl rfl
  · exact hs.setKey k p
  · exact hs.load bytes
  · exact hs.congr rfl rfl rfl rfl rfl
  · exact hs

/-- Settles O12: by induction on the schedule, from reset by one transaction after another. -/
theorem reachableStatesMeetTheInvariant : Obligations.ReachableStatesMeetTheInvariant := by
  intro s h
  induction h with
  | reset => exact resetMeetsTheInvariant
  | perform _ hp ih => exact transactionsKeepTheInvariant _ _ _ _ ih hp

end Sys2Proof.Machine
end

section
/-! The ends of a run: stuck, waiting and quiescent machines, and the key press that ends a wait
(spec/60_exceptions.md R216, spec/70_reset_and_hazards.md R263, spec/44_timers_and_keypad.md R204 to R206). -/

namespace Sys2Proof.Machine

/-- Where a step goes to a state from which every step stays, every longer run ends there. -/
theorem stepN_of_fixed {s t : State} (hs : step s = .next t) (ht : step t = .next t) (n : Nat) :
    stepN (n + 1) s = .next t := by
  induction n generalizing s with
  | zero => exact stepN_succ_of_step hs 0
  | succ n ih => exact (stepN_succ_of_step hs (n + 1)).trans (ih ht)

/-! ### Stuck -/

/-- Settles O27: the report does not move PC, so the next step reports again; `setKey` finds the machine Running, and
no other transaction writes PC or the mode. -/
theorem outOfRangePcIsStuckForEver : Obligations.OutOfRangePcIsStuckForEver := by
  intro s hm hpc
  refine ⟨stepN_of_fixed (step_of_pcOutOfRange hm hpc) (step_of_pcOutOfRange hm hpc), fun tr u a h => ?_⟩
  obtain ⟨rnd, t, -, hs, rfl⟩ | ⟨-, rfl⟩ | ⟨k, p, -, rfl⟩ | ⟨bytes, -, rfl⟩ | ⟨-, rfl⟩ | rfl := perform_cases h
  · cases (step_of_pcOutOfRange (s := { s with rndIn := rnd }) hm hpc).symm.trans hs
    exact ⟨rfl, hm⟩
  · exact ⟨rfl, hm⟩
  · obtain ⟨x, hwait, -⟩ | ⟨-, h⟩ := setKey_cases k p s
    · exact absurd (hm.symm.trans hwait) (by simp)
    · exact h ▸ ⟨rfl, hm⟩
  · exact ⟨rfl, hm⟩
  · exact ⟨rfl, hm⟩
  · exact ⟨rfl, hm⟩

/-! ### Quiescent -/

theorem pc_add_ne (pc : Word) : pc + 2 ≠ pc ∧ pc + 4 ≠ pc := by
  constructor <;> intro h <;> simp at h

theorem pcAfterSkip_ne (s : State) (c : Bool) : pcAfterSkip s c ≠ s.pc := by
  cases c with
  | true => exact (pc_add_ne s.pc).2
  | false => exact (pc_add_ne s.pc).1

/-- A call that raises nothing counts SP up, and a return counts it down. -/
theorem effect_sp_ne {s : State} {i : Instr} (hr : reportOf s i = none) (hi : i = .ret ∨ ∃ nnn, i = .call nnn) :
    (effect s i).sp.val ≠ s.sp.val := by
  obtain rfl | ⟨nnn, rfl⟩ := hi
  · obtain ⟨k, hk, heff⟩ := effect_ret_of_no_report hr
    rw [heff, hk]
    exact (Nat.lt_succ_self k.val).ne
  · obtain ⟨k, hk, heff⟩ := effect_call_of_no_report hr
    rw [heff, hk]
    exact (Nat.lt_succ_self k.val).ne'

/-- Only a jump to where PC stands changes nothing. -/
theorem jump_of_after_eq_self {s : State} {i : Instr} (hm : s.mode = .running) (hrep : s.report = none)
    (h : after s i = s) :
    (∃ nnn, i = .jp nnn ∧ nnn.toNat = s.pc.toNat) ∨
      ∃ nnn, i = .jpV0Nnn nnn ∧ nnn.toNat + (s.getV 0).toNat = s.pc.toNat := by
  have hr : reportOf s i = none := by
    have := (after_report s i).symm.trans (congrArg State.report h)
    rwa [hrep, Option.or_none] at this
  have heff : effect s i = s := (after_of_reportOf_none hr).symm.trans h
  have hpc : pcAfter s i = s.pc := (effect_pc hr).symm.trans (congrArg State.pc heff)
  cases i with
  | jp nnn => exact .inl ⟨nnn, rfl, (addrOfNnn_toNat nnn).symm.trans (congrArg (fun t => t.pc.toNat) heff)⟩
  | jpV0Nnn nnn => exact .inr ⟨nnn, rfl, (offset_toNat nnn _).symm.trans (congrArg (fun t => t.pc.toNat) heff)⟩
  | seVxNn _ _ | sneVxNn _ _ | seVxVy _ _ _ | sneVxVy _ _ _ | skpVx _ | sknpVx _ =>
    exact absurd hpc (pcAfterSkip_ne s _)
  | call nnn => exact absurd (congrArg (fun t => t.sp.val) heff) (effect_sp_ne hr (.inr ⟨nnn, rfl⟩))
  | ret => exact absurd (congrArg (fun t => t.sp.val) heff) (effect_sp_ne hr (.inl rfl))
  | ldVxK x => exact absurd ((congrArg State.mode heff).trans hm) (by simp [effect])
  | _ => exact absurd hpc (pc_add_ne s.pc).1

/-- A jump to where PC stands changes nothing. -/
theorem exec_of_self_jump {s : State} {i : Instr}
    (h : (∃ nnn, i = .jp nnn ∧ nnn.toNat = s.pc.toNat) ∨
      ∃ nnn, i = .jpV0Nnn nnn ∧ nnn.toNat + (s.getV 0).toNat = s.pc.toNat) : exec i s = .next s := by
  obtain ⟨nnn, rfl, hpc⟩ | ⟨nnn, rfl, hpc⟩ := h
  · have htarget : addrOfNnn nnn = s.pc := BitVec.eq_of_toNat_eq ((addrOfNnn_toNat nnn).trans hpc)
    rw [exec_eq_after, after_of_reportOf_none rfl, effect, htarget, setPc_self]
  · have htarget : addrOfNnn nnn + wordOfByte (s.getV 0) = s.pc :=
      BitVec.eq_of_toNat_eq ((offset_toNat nnn _).trans hpc)
    rw [exec_eq_after, after_of_reportOf_none rfl, effect, htarget, setPc_self]

/-- Settles O28: a silent step that changes nothing has run an instruction that changes nothing, and only the jumps to
where PC stands are such. -/
theorem quiescentExactlyAtASelfJump : Obligations.QuiescentExactlyAtASelfJump := by
  intro s
  constructor
  · rintro ⟨hm, h⟩
    refine ⟨hm, ?_⟩
    obtain ⟨hwait, -⟩ | ⟨-, -, ht⟩ | ⟨-, -, -, ht⟩ | ⟨i, -, hpc, hdec, ht⟩ := step_cases h
    · exact absurd hm hwait
    · exact absurd (congrArg State.report ht) (by simp)
    · exact absurd (congrArg State.report ht) (by simp)
    · refine ⟨hpc, ?_⟩
      obtain ⟨nnn, rfl, hjp⟩ | ⟨nnn, rfl, hjp⟩ := jump_of_after_eq_self (s := s.clearReport) hm rfl ht.symm
      · exact .inl ⟨nnn, hdec, hjp⟩
      · exact .inr ⟨nnn, hdec, hjp⟩
  · rintro ⟨hm, hpc, ⟨nnn, hdec, hjp⟩ | ⟨nnn, hdec, hjp⟩⟩
    · exact ⟨hm, (step_of_decode hm hpc hdec).trans (exec_of_self_jump (.inl ⟨nnn, rfl, hjp⟩))⟩
    · exact ⟨hm, (step_of_decode hm hpc hdec).trans (exec_of_self_jump (.inr ⟨nnn, rfl, hjp⟩))⟩

/-! ### Waiting -/

/-- Settles O54: FX0A raises nothing, and its effect is the mode. -/
theorem waitForKeyStartsWaiting : Obligations.WaitForKeyStartsWaiting := fun x s =>
  ⟨effect s (.ldVxK x), exec_eq_after (.ldVxK x) s, rfl, rfl,
    kept_setPc { s with mode := .waitingForKey x } s.pc⟩

/-- A press edge completes the FX0A of a waiting machine. -/
theorem setKey_of_press_edge {s : State} {x k : Nibble} (hm : s.mode = .waitingForKey x) (hk : s.getKey k = false) :
    setKey k true s = (s.setKeySlot k true).resolveKey x k := by
  simp only [setKey, hm, qualifying, hk, Bool.not_false, Bool.and_self, if_true]

theorem getKey_setKeySlot_same (s : State) (k : Nibble) (p : Bool) : (s.setKeySlot k p).getKey k = p := by
  rw [getKey_setKeySlot, if_pos rfl]

theorem getKey_setKeySlot_ne (s : State) {k q : Nibble} (h : q ≠ k) (p : Bool) :
    (s.setKeySlot k p).getKey q = s.getKey q := by
  rw [getKey_setKeySlot, if_neg h.symm]

/-- Settles O55: a waiting step only clears the report, which leaves the machine waiting; the completion writes VX, PC
and the mode. -/
theorem waitingLastsUntilAPress : Obligations.WaitingLastsUntilAPress := by
  intro s x hm
  have hwait : s.mode ≠ .running := by simp [hm]
  refine ⟨stepN_of_fixed (step_of_waiting hwait) (step_of_waiting hwait), fun k hk => ?_⟩
  rw [setKey_of_press_edge hm hk]
  refine ⟨?_, rfl, rfl, getKey_setKeySlot_same s k true, fun q hq => getKey_setKeySlot_ne s hq true, ?_⟩
  · have hv : ((s.setKeySlot k true).resolveKey x k).getV x = k.zeroExtend 8 :=
      getV_setV_same (s.setKeySlot k true) x _
    rw [hv]
    exact BitVec.toNat_setWidth_of_le (by decide)
  · exact (kept_setV { s.setKeySlot k true with mode := .running } x _).advance

end Sys2Proof.Machine
end

section
/-! Control flow: skips on two registers, the jump with offset, calls and returns (spec/40_control_flow.md R101, R103,
R106 to R108). -/

namespace Sys2Proof.Machine

/-- Settles O35: both are skips, decided by whether VX equals VY and by whether it differs; neither reads N. -/
theorem registerSkipsCompareVxVy : Obligations.RegisterSkipsCompareVxVy := by
  intro x y n s
  constructor
  · exact ⟨s.skipIf (s.getV x == s.getV y), exec_eq_after (.seVxVy x y n) s, kept_skipIf s _,
      fun heq => skipIf_pc_of_true s (beq_iff_eq.2 heq), fun hne => skipIf_pc_of_false s (beq_eq_false_iff_ne.2 hne)⟩
  · exact ⟨s.skipIf (s.getV x != s.getV y), exec_eq_after (.sneVxVy x y n) s, kept_skipIf s _,
      fun hne => skipIf_pc_of_true s (bne_iff_ne.2 hne), fun heq => skipIf_pc_of_false s (bne_eq_false_iff_eq.2 heq)⟩

/-- Settles O31: NNN and a byte add up to less than 65536, so the sum of words is the sum of numbers. -/
theorem jumpWithOffsetAddsV0 : Obligations.JumpWithOffsetAddsV0 := fun nnn s =>
  ⟨effect s (.jpV0Nnn nnn), exec_eq_after (.jpV0Nnn nnn) s, offset_toNat nnn (s.getV 0), kept_setPc s _⟩

/-! ### Returns -/

/-- What 00EE answers with an entry on the stack, the entry `k`. -/
theorem exec_ret_of_pos {s : State} (k : Fin 16) (h : s.sp.val = k.val + 1) :
    exec .ret s = .next { s with sp := k.castSucc, pc := s.stack[k] } := by
  have hr : reportOf s .ret = none := if_neg (by omega)
  rw [exec_of_no_report hr, effect, returned_eq k h]

/-- Settles O29: the entry below SP is popped, and with none left the report is the whole effect. -/
theorem returnPopsTheStack : Obligations.ReturnPopsTheStack := by
  refine ⟨fun s h => ?_, fun s h => exec_of_report (if_pos h)⟩
  have hsp := s.sp.isLt
  have hk : s.sp.val = (⟨s.sp.val - 1, by omega⟩ : Fin 16).val + 1 := (Nat.sub_add_cancel h).symm
  exact ⟨_, exec_ret_of_pos _ hk, rfl, rfl, kept_setPc { s with sp := _ } _⟩

/-! ### Calls -/

/-- What 2NNN answers with room on the stack, at the entry `k`. -/
theorem exec_call_of_lt {s : State} (nnn : Addr12) (k : Fin 16) (h : s.sp.val = k.val) :
    exec (.call nnn) s =
      .next { s with stack := s.stack.set k.val (s.pc + 2) k.isLt, sp := k.succ, pc := addrOfNnn nnn } := by
  have hr : reportOf s (.call nnn) = none := if_neg (by omega)
  rw [exec_of_no_report hr, effect, called_eq nnn k h]
  rfl

/-- Settles O32: PC + 2 is written over the first dead entry, and with none left the report is the whole effect. -/
theorem callPushesTheReturnAddress : Obligations.CallPushesTheReturnAddress := by
  refine ⟨fun nnn s h => ?_, fun nnn s h => exec_of_report (if_pos h)⟩
  refine ⟨_, exec_call_of_lt nnn ⟨s.sp.val, h⟩ rfl, addrOfNnn_toNat nnn, rfl, Vector.getElem_set_self h, fun k hk => ?_,
    kept_setPc { s with stack := _, sp := _ } _⟩
  exact Vector.getElem_set_ne h k.isLt hk.symm

/-- Settles O33: the return finds SP one above the entry that the call wrote, and pops it. -/
theorem callThenReturnComesBack : Obligations.CallThenReturnComesBack := by
  intro nnn s h
  refine ⟨_, _, exec_call_of_lt nnn ⟨s.sp.val, h⟩ rfl, addrOfNnn_toNat nnn, exec_ret_of_pos ⟨s.sp.val, h⟩ rfl,
    Vector.getElem_set_self h, fun k hk => ?_, kept_setPc { s with stack := _ } _⟩
  exact Vector.getElem_set_ne h k.isLt hk.symm

end Sys2Proof.Machine
end

section
/-! The logic, arithmetic and shift instructions, the random byte, and the three writes of I
(spec/41_load_and_alu.md R124 to R131, R146, spec/42_index_and_memory.md R151 to R153). -/

namespace Sys2Proof.Machine

/-! ### Logic -/

/-- Settles O38: each writes one byte to VX, whose bits are the operation of the bits. -/
theorem logicWorksBitByBitWithoutAFlag : Obligations.LogicWorksBitByBitWithoutAFlag := by
  intro x y s
  refine ⟨?_, ?_, ?_⟩
  · obtain ⟨t, hexec, hx, hpc, hkept⟩ := exec_of_after_setV (s := s) (i := .orVxVy x y) rfl
    exact ⟨t, hexec, hpc, hkept, fun k => hx ▸ BitVec.getLsbD_or⟩
  · obtain ⟨t, hexec, hx, hpc, hkept⟩ := exec_of_after_setV (s := s) (i := .andVxVy x y) rfl
    exact ⟨t, hexec, hpc, hkept, fun k => hx ▸ BitVec.getLsbD_and⟩
  · obtain ⟨t, hexec, hx, hpc, hkept⟩ := exec_of_after_setV (s := s) (i := .xorVxVy x y) rfl
    exact ⟨t, hexec, hpc, hkept, fun k => hx ▸ BitVec.getLsbD_xor⟩

/-! ### A result and a flag -/

theorem Kept.setV {s t : State} {regs : List Nibble} (h : Kept regs s t) {x : Nibble} (hx : x ∈ regs) (b : Byte) :
    Kept regs s (t.setV x b) :=
  { h with v := fun r hr => (getV_setV_ne (ne_of_mem_of_not_mem hx hr).symm b).trans (h.v r hr) }

/-- What an instruction answers whose whole effect is to write VX, then VF, and advance PC. -/
theorem exec_of_after_setV_flag {s : State} {i : Instr} {x : Nibble} {b : Byte} {c : Bool}
    (h : after s i = ((s.setV x b).setV flagReg (flagByte c)).advance) :
    ∃ t, exec i s = .next t ∧ (x ≠ 0xF → t.getV x = b) ∧ t.getV 0xF = flagByte c ∧ t.pc = s.pc + 2 ∧
      Kept [x, 0xF] s t := by
  refine ⟨after s i, exec_eq_after i s, ?_⟩
  rw [h]
  refine ⟨fun hx => ?_, getV_setV_same (s.setV x b) flagReg _, rfl, Kept.advance ?_⟩
  · exact (getV_setV_ne hx (flagByte c)).trans (getV_setV_same s x b)
  · exact ((kept_setV s x b).mono (by simp)).setV (by simp) _

theorem flagByte_decide (p : Prop) [Decidable p] : flagByte (decide p) = if p then 1 else 0 := by
  simp only [flagByte, decide_eq_true_eq]

/-- Settles O39: the result is the sum of two bytes, the flag whether the sum of the numbers exceeds 255. -/
theorem addSetsTheCarry : Obligations.AddSetsTheCarry := by
  intro x y s
  obtain ⟨t, hexec, hx, hf, hpc, hkept⟩ := exec_of_after_setV_flag (s := s) (i := .addVxVy x y) rfl
  exact ⟨t, hexec, fun hne => hx hne ▸ BitVec.toNat_add _ _, hf.trans (flagByte_decide _), hpc, hkept⟩

/-- A difference of bytes is the difference of the numbers modulo 256. -/
theorem toNat_sub_eq_emod (a b : Byte) : ((a - b).toNat : Int) = (a.toNat - b.toNat : Int) % 256 := by
  have := a.isLt
  have := b.isLt
  rw [BitVec.toNat_sub]
  omega

/-- Settles O40: the result is the difference of two bytes, the flag whether the subtrahend is at most the minuend. -/
theorem subtractSetsNoBorrow : Obligations.SubtractSetsNoBorrow := by
  intro x y s
  constructor
  · obtain ⟨t, hexec, hx, hf, hpc, hkept⟩ := exec_of_after_setV_flag (s := s) (i := .subVxVy x y) rfl
    exact ⟨t, hexec, fun hne => hx hne ▸ toNat_sub_eq_emod _ _, hf.trans (flagByte_decide _), hpc, hkept⟩
  · obtain ⟨t, hexec, hx, hf, hpc, hkept⟩ := exec_of_after_setV_flag (s := s) (i := .subnVxVy x y) rfl
    exact ⟨t, hexec, fun hne => hx hne ▸ toNat_sub_eq_emod _ _, hf.trans (flagByte_decide _), hpc, hkept⟩

theorem flagByte_toNat (c : Bool) : (flagByte c).toNat = c.toNat := by cases c <;> rfl

theorem outRight_toNat (b : Byte) : (outRight b).toNat = b.toNat % 2 := by
  rw [outRight, BitVec.getLsbD, Nat.testBit_zero]
  by_cases h : b.toNat % 2 = 1
  · rw [decide_eq_true h, h]; rfl
  · rw [decide_eq_false h, Bool.toNat_false]; omega

theorem outLeft_toNat (b : Byte) : (outLeft b).toNat = b.toNat / 128 := by
  have := b.isLt
  rw [outLeft, BitVec.getLsbD, Nat.testBit_eq_decide_div_mod_eq]
  by_cases h : b.toNat / 2 ^ 7 % 2 = 1
  · rw [decide_eq_true h, Bool.toNat_true]; omega
  · rw [decide_eq_false h, Bool.toNat_false]; omega

theorem shiftRight_one_toNat (b : Byte) : (b >>> 1).toNat = b.toNat / 2 := by
  rw [BitVec.toNat_ushiftRight, Nat.shiftRight_eq_div_pow]

theorem shiftLeft_one_toNat (b : Byte) : (b <<< 1).toNat = 2 * b.toNat % 256 := by
  rw [BitVec.toNat_shiftLeft, Nat.shiftLeft_eq, Nat.mul_comm]

/-- Settles O41: a shift by one halves or doubles, and the bit out is the remainder or the quotient. -/
theorem shiftsMoveVyAndKeepTheBitOut : Obligations.ShiftsMoveVyAndKeepTheBitOut := by
  intro x y s
  constructor
  · obtain ⟨t, hexec, hx, hf, hpc, hkept⟩ := exec_of_after_setV_flag (s := s) (i := .shrVxVy x y) rfl
    refine ⟨t, hexec, fun hne => hx hne ▸ shiftRight_one_toNat _, ?_, hpc, hkept⟩
    rw [hf, flagByte_toNat, outRight_toNat]
  · obtain ⟨t, hexec, hx, hf, hpc, hkept⟩ := exec_of_after_setV_flag (s := s) (i := .shlVxVy x y) rfl
    refine ⟨t, hexec, fun hne => hx hne ▸ shiftLeft_one_toNat _, ?_, hpc, hkept⟩
    rw [hf, flagByte_toNat, outLeft_toNat]

/-! ### The random byte -/

/-- Settles O42: the byte is the presented one or the free value of the count, ANDed with NN; the count moves on. -/
theorem randomByteIsMasked : Obligations.RandomByteIsMasked := by
  intro x nn s
  have hx : (effect s (.rndVxNn x nn)).getV x = s.rnd &&& nn := getV_setV_same s.drawRandom x _
  refine ⟨effect s (.rndVxNn x nn), exec_eq_after (.rndVxNn x nn) s, fun rnd h => ?_, fun h => ?_, fun k hk => ?_, rfl,
    rfl, (kept_setV s.drawRandom x _).advance⟩
  · rw [hx, State.rnd, h, Option.getD_some]
  · rw [hx, State.rnd, h, Option.getD_none]
  · rw [hx, BitVec.getLsbD_and, hk, Bool.and_false]

/-! ### The index register -/

/-- What an instruction answers whose whole effect is to write I and advance PC. -/
theorem exec_of_after_writeI {s : State} {i : Instr} {w : Word} (h : after s i = { s with i := w }.advance) :
    ∃ t, exec i s = .next t ∧ t.i = w ∧ t.pc = s.pc + 2 ∧ Kept [] { s with i := t.i } t :=
  ⟨_, h ▸ exec_eq_after i s, rfl, rfl, kept_setPc { s with i := w } _⟩

theorem glyphAddr_toNat (v : Byte) : (glyphAddr v).toNat = v.toNat * 5 := by
  have h : (glyphAddr v).toNat = (wordOfByte v).toNat * 5 % 65536 := BitVec.toNat_mul _ _
  rw [h, wordOfByte_toNat]
  have := v.isLt
  omega

/-- Settles O43: each writes one word to I, a zero-extended NNN, a sum of words, or a product that does not wrap. -/
theorem indexInstructionsSetTheIndex : Obligations.IndexInstructionsSetTheIndex := by
  refine ⟨fun nnn s => ?_, fun x s => ⟨?_, ?_⟩⟩
  · obtain ⟨t, hexec, hi, hpc, hkept⟩ := exec_of_after_writeI (s := s) (i := .ldINnn nnn) rfl
    exact ⟨t, hexec, hi ▸ addrOfNnn_toNat nnn, hpc, hkept⟩
  · obtain ⟨t, hexec, hi, hpc, hkept⟩ := exec_of_after_writeI (s := s) (i := .addIVx x) rfl
    refine ⟨t, hexec, ?_, hpc, hkept⟩
    rw [hi, BitVec.toNat_add, wordOfByte_toNat]
  · obtain ⟨t, hexec, hi, hpc, hkept⟩ := exec_of_after_writeI (s := s) (i := .ldFVx x) rfl
    exact ⟨t, hexec, hi ▸ glyphAddr_toNat (s.getV x), hpc, hkept⟩

end Sys2Proof.Machine
end

section
/-! The memory instructions and `load`: what they store, what they load, and the report of an illegal range
(spec/42_index_and_memory.md R154 to R156, spec/20_memory.md R48, R49, R54, spec/60_exceptions.md R228). -/

namespace Sys2Proof.Machine

/-! ### Stores -/

/-- What an instruction answers whose whole effect is to store bytes at I and advance PC. -/
theorem exec_of_effect_store {s : State} {i : Instr} {bs : List Byte} (hr : reportOf s i = none)
    (h : effect s i = (s.storeBytes s.i.toNat bs).advance) (hwf : Memory.wf s.mem = true)
    (hend : s.i.toNat + bs.length ≤ 4096) :
    ∃ t, exec i s = .next t ∧ (∀ k, (hk : k < bs.length) → t.readMem (s.effAddr k) = bs[k]) ∧
      (∀ a, a < s.effAddr 0 ∨ s.effAddr bs.length ≤ a → t.readMem a = s.readMem a) ∧
      t.pc = s.pc + 2 ∧ Kept [] { s with mem := t.mem } t := by
  refine ⟨effect s i, exec_of_no_report hr, ?_⟩
  rw [h]
  exact ⟨fun k hk => Memory.read_writeBytes_in hwf hend hk, fun a ha => Memory.read_writeBytes_out ha, rfl,
    kept_setPc { s with mem := Memory.writeBytes s.mem s.i.toNat bs } _⟩

/-- A store between the font and the end of memory raises nothing. -/
theorem map_writeRangeError_none {base len : Nat} (hfont : 0x50 ≤ base) (hend : base + len ≤ 4096) :
    (writeRangeError base len).map Report.illegalMemAccess = none :=
  Option.map_eq_none_iff.2 (writeRangeError_none.2 ⟨hfont, .inr hend⟩)

/-- Settles O44: the three bytes stored are the digits of VX. -/
theorem bcdStoresThreeDigits : Obligations.BcdStoresThreeDigits := by
  intro x s hwf hfont hend
  have hend' : s.i.toNat + 3 ≤ 4096 := Nat.succ_le_succ hend
  obtain ⟨t, hexec, hin, hout, hpc, hkept⟩ :=
    exec_of_effect_store (i := .ldBVx x) (map_writeRangeError_none hfont hend') rfl hwf hend'
  obtain ⟨h100, htail⟩ := List.cons.inj (bcdDigits_toNat (s.getV x))
  obtain ⟨h10, htail⟩ := List.cons.inj htail
  obtain ⟨h1, -⟩ := List.cons.inj htail
  refine ⟨t, hexec, ?_, ?_, ?_, fun a ha => hout a ha, hpc, hkept⟩
  · rw [hin 0 (Nat.zero_lt_succ 2)]
    exact h100
  · rw [hin 1 (Nat.one_lt_succ_succ 1)]
    exact h10
  · rw [hin 2 (Nat.lt_succ_self 2)]
    exact h1

/-- Settles O45: byte `k` of those stored is V`k`. -/
theorem registerDumpStoresV0ToVx : Obligations.RegisterDumpStoresV0ToVx := by
  intro x s hwf hfont hend
  have hlen : (s.firstRegs (regCount x)).length = x.toNat + 1 := firstRegs_length s (regCount_le x)
  have hend' : s.i.toNat + (x.toNat + 1) ≤ 4096 := Nat.succ_le_succ hend
  obtain ⟨t, hexec, hin, hout, hpc, hkept⟩ :=
    exec_of_effect_store (i := .ldMemVx x) (map_writeRangeError_none hfont hend') rfl hwf (hlen.symm ▸ hend')
  refine ⟨t, hexec, fun r hr => ?_, fun a ha => hout a (hlen.symm ▸ ha), hpc, hkept⟩
  have hk : r.toNat < (s.firstRegs (regCount x)).length := hlen.symm ▸ Nat.lt_succ_of_le hr
  rw [hin r.toNat hk]
  exact firstRegs_getElem s hk r.isLt

/-- Settles O48: the two bytes of the opcode are two registers that the dump stored side by side. -/
theorem storedBytesAreFetched : Obligations.StoredBytesAreFetched := by
  intro x s t r q hwf hfont hend hrq hq h
  obtain ⟨t', hexec, hin, -⟩ := registerDumpStoresV0ToVx x s hwf hfont hend
  obtain rfl := Host.Outcome.next.inj (hexec.symm.trans h)
  have hnext : s.effAddr r.toNat + 1 = s.effAddr q.toNat := congrArg (s.i.toNat + ·) hrq
  rw [opcodeAt_toNat, hnext, hin r (by omega), hin q hq]

/-! ### Loads -/

/-- Settles O46: register `r` of V0..VX is the byte at I + `r`, and the registers past VX keep theirs. -/
theorem registerLoadReadsV0ToVx : Obligations.RegisterLoadReadsV0ToVx := by
  intro x s hend
  have hend' : s.i.toNat + regCount x ≤ 4096 := Nat.succ_le_succ hend
  have hr : reportOf s (.ldVxMem x) = none := Option.map_eq_none_iff.2 (readRangeError_none.2 (.inr hend'))
  have hv : ∀ r : Nibble, (effect s (.ldVxMem x)).getV r =
      if r.toNat < regCount x then s.readMem (s.effAddr r.toNat) else s.getV r := fun r =>
    loadRegs_getElem s.mem s.i.toNat (regCount x) s.v r.toNat r.isLt
  refine ⟨effect s (.ldVxMem x), exec_of_no_report hr, fun r hle => ?_, fun r hlt => ?_, rfl,
    kept_setPc { s with v := loadRegs s.mem s.i.toNat (regCount x) s.v } _⟩
  · exact (hv r).trans (if_pos (Nat.lt_succ_of_le hle))
  · exact (hv r).trans (if_neg (Nat.not_lt.2 hlt))

/-! ### Illegal ranges -/

theorem readRangeError_of_lowestBad {base len a : Nat} (h : LowestBad badRead base len a) :
    readRangeError base len = some a := by
  obtain ⟨⟨hlo, hhi, hbad⟩, hmin⟩ := h
  unfold badRead at hbad hmin
  have hle : a ≤ max base 4096 := hmin (max base 4096) (by omega) (by omega) (by omega)
  exact readRangeError_some.2 ⟨by omega, by omega, by omega⟩

theorem writeRangeError_of_lowestBad {base len a : Nat} (h : LowestBad badWrite base len a) :
    writeRangeError base len = some a := by
  obtain ⟨⟨hlo, hhi, hbad⟩, hmin⟩ := h
  unfold badWrite at hbad hmin
  by_cases hfont : base < 0x50
  · have hle : a ≤ base := hmin base (Nat.le_refl base) (by omega) (.inl hfont)
    exact writeRangeError_some.2 (.inl ⟨hfont, by omega⟩)
  · have hle : a ≤ max base 4096 := hmin (max base 4096) (by omega) (by omega) (by omega)
    exact writeRangeError_some.2 (.inr ⟨by omega, by omega, by omega, by omega⟩)

/-- Settles O47: the range check of each finds the lowest bad address, which the report records. -/
theorem illegalAccessReportsTheLowestAddress : Obligations.IllegalAccessReportsTheLowestAddress := by
  intro s a x y n
  refine ⟨fun h => exec_of_report ?_, fun h => exec_of_report ?_, fun h => exec_of_report ?_,
    fun h => exec_of_report ?_⟩
  · exact congrArg (Option.map Report.illegalMemAccess) (writeRangeError_of_lowestBad h)
  · exact congrArg (Option.map Report.illegalMemAccess) (writeRangeError_of_lowestBad h)
  · exact congrArg (Option.map Report.illegalMemAccess) (readRangeError_of_lowestBad h)
  · exact congrArg (Option.map Report.illegalMemAccess) (readRangeError_of_lowestBad h)

/-! ### `load` -/

/-- Settles O58: `load` stores the first 3584 bytes at 0x200 onward, which ends inside memory. -/
theorem loadCopiesTheProgram : Obligations.LoadCopiesTheProgram := by
  intro bytes s hwf
  have hlen : (bytes.take 3584).length = min 3584 bytes.length := List.length_take
  refine ⟨load bytes s, rfl, fun k hk hk' => ?_, fun a ha => ?_, rfl, kept_setPc { s with mem := (load bytes s).mem } _⟩
  · have hin : k < (bytes.take 3584).length := by omega
    exact (Memory.read_writeBytes_in (base := 0x200) hwf (by omega) hin).trans List.getElem_take
  · exact Memory.read_writeBytes_out (bs := bytes.take 3584) (base := 0x200) (by omega)

end Sys2Proof.Machine
end

section
/-! Keys, timers and the read transactions (spec/44_timers_and_keypad.md R191, R192,
spec/60_exceptions.md R224 to R232). -/

namespace Sys2Proof.Machine

/-! ### Skips on a key -/

theorem keyOf_eq {s : State} {x k : Nibble} (h : (s.getV x).toNat = k.toNat) : keyOf s x = k := by
  have := k.isLt
  exact BitVec.eq_of_toNat_eq ((keyOf_toNat (by omega)).trans h)

/-- What EX9E and EXA1 answer where VX names the key `k`. -/
theorem exec_keySkip {s : State} {x k : Nibble} (h : (s.getV x).toNat = k.toNat) :
    exec (.skpVx x) s = .next (s.skipIf (s.getKey k == true)) ∧
      exec (.sknpVx x) s = .next (s.skipIf (s.getKey k == false)) := by
  have hk := k.isLt
  have hle : ¬ 15 < (s.getV x).toNat := by omega
  have hskp : reportOf s (.skpVx x) = none := if_neg hle
  have hsknp : reportOf s (.sknpVx x) = none := if_neg hle
  rw [exec_of_no_report hskp, exec_of_no_report hsknp, effect, effect, keyOf_eq h]
  exact ⟨rfl, rfl⟩

/-- Settles O52: with VX at most 15 both are skips, decided by the slot that VX names; above that both report. -/
theorem keySkipsReadTheLatch : Obligations.KeySkipsReadTheLatch := by
  refine ⟨fun x k s h => ?_, fun x s h => ⟨exec_of_report (if_pos h), exec_of_report (if_pos h)⟩⟩
  obtain ⟨hskp, hsknp⟩ := exec_keySkip h
  exact ⟨⟨_, hskp, kept_skipIf s _, fun hp => skipIf_pc_of_true s (by rw [hp]; rfl),
      fun hp => skipIf_pc_of_false s (by rw [hp]; rfl)⟩,
    ⟨_, hsknp, kept_skipIf s _, fun hp => skipIf_pc_of_true s (by rw [hp]; rfl),
      fun hp => skipIf_pc_of_false s (by rw [hp]; rfl)⟩⟩

/-! ### Transactions -/

/-- Settles O56: each timer's tick is its number less one, down to 0, and nothing else is written. -/
theorem tickDecrementsEachNonzeroTimer : Obligations.TickDecrementsEachNonzeroTimer := fun s =>
  ⟨tickTimers s, rfl, tick_toNat s.dt, tick_toNat s.st, rfl, kept_setPc (tickTimers s) s.pc⟩

/-- Settles O57: without a press edge at a waiting machine `setKey` is the write of the latch slot. -/
theorem setKeyWritesOneSlot : Obligations.SetKeyWritesOneSlot := by
  intro k p s h
  have hset : setKey k p s = s.setKeySlot k p := by
    obtain ⟨x, hm, rfl, hk, -⟩ | ⟨-, hset⟩ := setKey_cases k p s
    · simp [hm, hk] at h
    · exact hset
  refine ⟨setKey k p s, rfl, ?_⟩
  rw [hset]
  exact ⟨getKey_setKeySlot_same s k p, fun q hq => getKey_setKeySlot_ne s hq p, rfl,
    kept_setPc (s.setKeySlot k p) s.pc⟩

/-- Settles O59: each answers the field it reads. -/
theorem readTransactionsAnswer : Obligations.ReadTransactionsAnswer := fun _ =>
  ⟨fun _ _ => rfl, rfl, rfl, rfl⟩

end Sys2Proof.Machine
end

section
/-! DXYN, once and twice: the XOR of the clipped sprite and the collision flag (spec/43_display.md R176 to R178). -/

namespace Sys2Proof.Machine

/-! ### Pixels by number and by port -/

theorem getPixel_eq_pixel (px : BitVec 6) (py : BitVec 5) (s : State) :
    getPixel px py s = pixel s.fb px.toNat py.toNat := by
  have hport : px.toNat < 64 ∧ py.toNat < 32 := ⟨px.isLt, py.isLt⟩
  rw [pixel, dif_pos hport, getPixel]

/-- Two states that answer the same pixel at every port value have one framebuffer. -/
theorem fb_eq_of_getPixel_eq {s t : State} (h : ∀ px py, getPixel px py s = getPixel px py t) : s.fb = t.fb := by
  refine framebuffer_ext fun px py hx hy => ?_
  have hport := h (BitVec.ofNatLT px hx) (BitVec.ofNatLT py hy)
  rwa [getPixel_eq_pixel, getPixel_eq_pixel] at hport

/-- The sprite that the drawing loop draws is the one that R176 describes. -/
theorem spriteOver_eq_spriteCovers (s : State) (x y n : Nibble) (px py : Nat) :
    spriteOver s.mem (s.effAddr 0) (spriteX (s.getV x)) (spriteY (s.getV y)) 0 n.toNat px py =
      spriteCovers s x y n px py := rfl

/-! ### What a draw does -/

theorem exec_drw_of_legal {x y n : Nibble} {s : State} (h : n.toNat = 0 ∨ s.effAddr n.toNat ≤ 4096) :
    exec (.drw x y n) s = .next (effect s (.drw x y n)) := by
  have hr : reportOf s (.drw x y n) = none := Option.map_eq_none_iff.2 (readRangeError_none.2 h)
  exact exec_of_no_report hr

theorem getPixel_effect_drw (s : State) (x y n : Nibble) (px : BitVec 6) (py : BitVec 5) :
    getPixel px py (effect s (.drw x y n)) = (getPixel px py s ^^ spriteCovers s x y n px.toNat py.toNat) := by
  rw [getPixel_eq_pixel, getPixel_eq_pixel, ← spriteOver_eq_spriteCovers]
  exact drawRows_pixel s.mem (s.effAddr 0) _ _ n.toNat 0 ⟨s.fb, false⟩ px.isLt py.isLt

theorem drawSprite_collision (s : State) (x y n : Nibble) :
    (s.drawSprite x y n).collision = true ↔ ∃ (px : BitVec 6) (py : BitVec 5),
      getPixel px py s = true ∧ spriteCovers s x y n px.toNat py.toNat = true := by
  refine (drawRows_collision s.mem (s.effAddr 0) _ _ n.toNat 0 ⟨s.fb, false⟩).trans ?_
  constructor
  · rintro (hfalse | ⟨px, py, hx, hy, hcovers, hpixel⟩)
    · cases hfalse
    · exact ⟨BitVec.ofNatLT px hx, BitVec.ofNatLT py hy, (getPixel_eq_pixel _ _ s).trans hpixel, hcovers⟩
  · rintro ⟨px, py, hpixel, hcovers⟩
    exact .inr ⟨px.toNat, py.toNat, px.isLt, py.isLt, hcovers, (getPixel_eq_pixel px py s).symm.trans hpixel⟩

theorem flagByte_eq_one_iff {c : Bool} : flagByte c = 1 ↔ c = true := by cases c <;> decide

theorem flagByte_eq_zero_iff {c : Bool} : flagByte c = 0 ↔ c = false := by cases c <;> decide

/-- VF after a draw is the collision. -/
theorem getV_flag_effect_drw (s : State) (x y n : Nibble) :
    (effect s (.drw x y n)).getV 0xF = flagByte (s.drawSprite x y n).collision :=
  getV_setV_same { s with fb := (s.drawSprite x y n).fb, draw := true } flagReg _

theorem getV_flag_effect_drw_eq_one_iff (s : State) (x y n : Nibble) :
    (effect s (.drw x y n)).getV 0xF = 1 ↔ ∃ (px : BitVec 6) (py : BitVec 5),
      getPixel px py s = true ∧ spriteCovers s x y n px.toNat py.toNat = true := by
  rw [getV_flag_effect_drw, flagByte_eq_one_iff, drawSprite_collision]

/-- Settles O50: the loop XORs the sprite's bit into each pixel, and the flag is that some bit met a set pixel. -/
theorem drawXorsTheClippedSprite : Obligations.DrawXorsTheClippedSprite := by
  intro x y n s h
  refine ⟨effect s (.drw x y n), exec_drw_of_legal h, getPixel_effect_drw s x y n,
    (getV_flag_effect_drw_eq_one_iff s x y n).2, fun hclear => ?_, rfl, rfl, kept_effect_drw s x y n⟩
  rw [getV_flag_effect_drw, flagByte_eq_zero_iff, Bool.eq_false_iff, ne_eq, drawSprite_collision]
  rintro ⟨px, py, hpixel, hcovers⟩
  exact absurd hcovers (by rw [hclear px py hpixel]; simp)

/-! ### Drawing twice -/

/-- Unless VF is one of its coordinates, the sprite lies where it lay before the first draw. -/
theorem spriteCovers_effect_drw (s : State) {x y n : Nibble} (hx : x ≠ 0xF) (hy : y ≠ 0xF) (px py : Nat) :
    spriteCovers (effect s (.drw x y n)) x y n px py = spriteCovers s x y n px py := by
  have hkept := kept_effect_drw s x y n
  have hvx : (effect s (.drw x y n)).getV x = s.getV x := hkept.v x (mt List.mem_singleton.1 hx)
  have hvy : (effect s (.drw x y n)).getV y = s.getV y := hkept.v y (mt List.mem_singleton.1 hy)
  simp only [spriteCovers, hvx, hvy, hkept.i, hkept.mem]
  rfl

/-- Settles O51: the second draw XORs into what the first left; at the same place the two XORs cancel, and a bit of the
sprite meets a set pixel the second time where it met a clear one the first. -/
theorem drawingTwiceErases : Obligations.DrawingTwiceErases := by
  intro x y n s h
  have hflag := getV_flag_effect_drw (effect s (.drw x y n)) x y n
  have hpixel : ∀ px py, getPixel px py (effect (effect s (.drw x y n)) (.drw x y n)) =
      ((getPixel px py s ^^ spriteCovers s x y n px.toNat py.toNat) ^^
        spriteCovers (effect s (.drw x y n)) x y n px.toNat py.toNat) := fun px py => by
    rw [getPixel_effect_drw, getPixel_effect_drw]
  have hone : (effect (effect s (.drw x y n)) (.drw x y n)).getV 0xF = 1 ↔ ∃ (px : BitVec 6) (py : BitVec 5),
      (getPixel px py s ^^ spriteCovers s x y n px.toNat py.toNat) = true ∧
        spriteCovers (effect s (.drw x y n)) x y n px.toNat py.toNat = true := by
    simp only [getV_flag_effect_drw_eq_one_iff (effect s (.drw x y n)), getPixel_effect_drw]
  refine ⟨_, _, exec_drw_of_legal h, exec_drw_of_legal (s := effect s (.drw x y n)) h, hpixel, hone, ?_,
    fun hx hy => ⟨fb_eq_of_getPixel_eq fun px py => ?_, hone.trans ?_⟩⟩
  · rw [hflag, flagByte_eq_one_iff, flagByte_eq_zero_iff]
    exact Bool.eq_false_or_eq_true _
  · rw [hpixel, spriteCovers_effect_drw s hx hy, Bool.xor_assoc, Bool.xor_self, Bool.xor_false]
  · refine exists_congr fun px => exists_congr fun py => ?_
    rw [spriteCovers_effect_drw s hx hy]
    refine and_congr_left fun hcovers => ?_
    rw [hcovers, Bool.xor_true, Bool.not_eq_true']

end Sys2Proof.Machine
end
